-- ==== Sys2Proof/Word.lean ====
section
/-! DEFINITION. The data widths of the engine: bytes, 16-bit values, and byte strings of fixed length
(00_scope.md R13, R14; 10_state.md R21). -/

namespace Sys2Proof

/-- A byte: 8 bits, a value 0 to 255 (R13). -/
abbrev Byte := BitVec 8

/-- A 16-bit unsigned value: the frame counter and the block index (R14, R27, R34). -/
abbrev Half := BitVec 16

/-- A byte string; index 0 is the lowest offset, the first byte on the wire (R13). -/
abbrev Bytes := List Byte

/-- A cipher block: a byte string of length 16, byte 0 first (R13, R53). -/
abbrev Block128 := Vector Byte 16

/-- A key: a byte string of length 16, byte 0 the first the key schedule takes (R13, R53, R104). -/
abbrev Key128 := Vector Byte 16

/-- A device address: an opaque 4-byte string with no integer reading (R26; 90_conflicts.md C2). -/
abbrev DevAddr := Vector Byte 4

/-- A word of the AES key schedule: 4 bytes (R104). -/
abbrev KeyWord := Vector Byte 4

end Sys2Proof
end

