-- ==== Sys2Proof/Syntax.lean ====
section
/-! DEFINITION. What the host can say to the engine: the four commands (spec/opcode_table.json, 30_encoding.md R83),
the fields of the command word (R82), and the host actions on named registers and buffer bytes (R51, R54, R89). -/

namespace Sys2Proof

/-- The commands: one constructor for each row of spec/opcode_table.json (R83). There is no operand field:
every operand is in the registers (R82). -/
inductive Instr
  /-- `ENCODE.UP`, word 0x01 (R185 with d = 0). -/
  | encodeUp
  /-- `ENCODE.DN`, word 0x05 (R185 with d = 1). -/
  | encodeDn
  /-- `DECODE.UP`, word 0x02 (R190 with d = 0). -/
  | decodeUp
  /-- `DECODE.DN`, word 0x06 (R190 with d = 1). -/
  | decodeDn
deriving DecidableEq, Repr

/-- Direction, never carried in a frame (R17, R81). -/
inductive Direction
  /-- Encoded 0. -/
  | uplink
  /-- Encoded 1. -/
  | downlink
deriving DecidableEq, Repr

/-- The three fields of the command word, format CMD8 (R82). -/
structure CommandFields where
  /-- Bits 7 to 3, `RSV`. -/
  rsv : BitVec 5
  /-- Bit 2, `d`. -/
  dir : BitVec 1
  /-- Bits 1 to 0, `OP`. -/
  op : BitVec 2
deriving DecidableEq, Repr

/-- The ten named registers other than the buffers (R21, R37). -/
inductive RegName
  | appkey
  | nwkkey
  | devaddr
  | fcnt
  | fctrl
  | fport
  | plen
  | flen
  | cmd
  | status
deriving DecidableEq, Repr

/-- The two byte buffers (R50). -/
inductive BufName
  /-- Plaintext side. -/
  | pbuf
  /-- Wire side. -/
  | fbuf
deriving DecidableEq, Repr

/-- A value the host writes to a register or reads from one: a number, or a byte string with index 0 first (R54).
A number is not bounded here, so that a value wider than its register can be said, and refused (R222). -/
inductive HostValue
  | num (n : Nat)
  | str (bytes : Bytes)
deriving DecidableEq, Repr

/-- One action of the host (R89). A write of `cmd` starts a command (R32). -/
inductive HostAccess
  /-- `WR <REG>, <value>`. -/
  | wr (r : RegName) (v : HostValue)
  /-- `RD <REG>`. -/
  | rd (r : RegName)
  /-- `WRB <BUF>[k], <byte>`. -/
  | wrb (b : BufName) (k : Nat) (v : Nat)
  /-- `RDB <BUF>[k]`. -/
  | rdb (b : BufName) (k : Nat)
  /-- `RESET`, the reset event (R240). -/
  | reset
deriving DecidableEq, Repr

/-- A place a bus address can name: a register or one buffer byte (R59). -/
inductive Port
  | reg (r : RegName)
  | byte (b : BufName) (k : Nat)
deriving DecidableEq, Repr

end Sys2Proof
end

