-- ==== Sys2Proof/WellFormed.lean ====
section
/-! DEFINITION. Which command words and which host actions have the form the interface gives them
(30_encoding.md R82, R84; 20_memory.md R51, R54; 60_exceptions.md R222). -/

namespace Sys2Proof

/-- `RSV` is 00000 and `OP` is 01 or 10 (R82); every other word is illegal (R84). -/
def CommandFields.wellFormed (f : CommandFields) : Bool :=
  f.rsv == 0 && (f.op == 1 || f.op == 2)

/-- The fields of a command (R82, R83): ENCODE is `OP` 01, DECODE is `OP` 10, Downlink sets bit 2. -/
def Instr.fields : Instr → CommandFields
  | .encodeUp => { rsv := 0, dir := 0, op := 1 }
  | .encodeDn => { rsv := 0, dir := 1, op := 1 }
  | .decodeUp => { rsv := 0, dir := 0, op := 2 }
  | .decodeDn => { rsv := 0, dir := 1, op := 2 }

/-- A command is well formed when its fields are. -/
def Instr.wellFormed (i : Instr) : Bool := i.fields.wellFormed

/-- The registers that are numbers, with their width in bits; the others are byte strings (R21, R54). -/
def RegName.numberWidth : RegName → Option Nat
  | .fcnt => some 16
  | .fctrl => some 8
  | .fport => some 8
  | .plen => some 8
  | .flen => some 8
  | .cmd => some 8
  | .status => some 8
  | .appkey => none
  | .nwkkey => none
  | .devaddr => none

/-- The registers that are byte strings, with their length in bytes (R21, R54). -/
def RegName.stringLength : RegName → Option Nat
  | .appkey => some 16
  | .nwkkey => some 16
  | .devaddr => some 4
  | .fcnt => none
  | .fctrl => none
  | .fport => none
  | .plen => none
  | .flen => none
  | .cmd => none
  | .status => none

/-- The host may write every register but STATUS (R21). -/
def RegName.hostWritable (r : RegName) : Bool := r != .status

/-- The host may read every register but the keys and CMD (R21, R23, R24, R32). -/
def RegName.hostReadable (r : RegName) : Bool := r != .appkey && r != .nwkkey && r != .cmd

/-- A value has the form of a register: a number that fits it, or a byte string of exactly its length
(R54, R222). -/
def HostValue.fits (v : HostValue) (r : RegName) : Bool :=
  match v with
  | .num n => match r.numberWidth with
    | some w => decide (n < 2 ^ w)
    | none => false
  | .str bs => match r.stringLength with
    | some l => decide (bs.length = l)
    | none => false

/-- A host action that exists at the interface (R222), but for the reads of a `⊥`, which depend on the state. -/
def HostAccess.wellFormed : HostAccess → Bool
  | .wr r v => r.hostWritable && v.fits r
  | .rd r => r.hostReadable
  | .wrb _ k v => decide (k < 255) && decide (v < 256)
  | .rdb _ k => decide (k < 255)
  | .reset => true

end Sys2Proof
end

