-- ==== Sys2Proof/Decode.lean ====
section
/-! DEFINITION. The command word: its decoder, total on all 256 bytes, and its encoder (30_encoding.md R82 to R84). -/

namespace Sys2Proof

/-- Why a word is not a command (R84): both are the contract violation IllegalCommand (R220). -/
inductive DecodeError
  /-- `RSV` is not 00000. -/
  | reservedBits (rsv : BitVec 5)
  /-- `OP` is 00 or 11. -/
  | reservedOp (op : BitVec 2)
deriving DecidableEq, Repr

/-- The bits of a direction: 0 Uplink, 1 Downlink (R81). -/
def Direction.bit : Direction → BitVec 1
  | .uplink => 0
  | .downlink => 1

/-- The direction a bit stands for (R81). -/
def Direction.ofBit (b : BitVec 1) : Direction :=
  if b = 1 then .downlink else .uplink

/-- Cut a word into its fields (R82). -/
def CommandFields.ofWord (w : Byte) : CommandFields where
  rsv := w.extractLsb' 3 5
  dir := w.extractLsb' 2 1
  op := w.extractLsb' 0 2

/-- Put the fields of a command word together (R82). -/
def CommandFields.toWord (f : CommandFields) : Byte :=
  f.rsv ++ f.dir ++ f.op

/-- The command a word stands for, or why there is none (R82, R83, R84). -/
def decode (w : Byte) : Except DecodeError Instr :=
  let f := CommandFields.ofWord w
  if f.rsv ≠ 0 then .error (.reservedBits f.rsv)
  else if f.op = 1 then
    .ok (match Direction.ofBit f.dir with
      | .uplink => .encodeUp
      | .downlink => .encodeDn)
  else if f.op = 2 then
    .ok (match Direction.ofBit f.dir with
      | .uplink => .decodeUp
      | .downlink => .decodeDn)
  else .error (.reservedOp f.op)

/-- The word of a command (R82, R83). -/
def encode (i : Instr) : Byte := i.fields.toWord

/-- One row of the command map (R83): a word is the row's command when `word and mask = pattern`. -/
structure CommandRow where
  mask : Byte
  pattern : Byte
  instr : Instr
deriving DecidableEq, Repr

/-- The complete command map (R83; spec/opcode_table.json). -/
def commandMap : List CommandRow :=
  [⟨0xFF, 0x01, .encodeUp⟩, ⟨0xFF, 0x05, .encodeDn⟩, ⟨0xFF, 0x02, .decodeUp⟩, ⟨0xFF, 0x06, .decodeDn⟩]

/-- The value that `nbits` bits of `w` give, every higher bit 0 (log 2). -/
def tableWord (nbits w : Nat) : Nat := w % 2 ^ nbits

/-- The command the decoder reads from a word of spec/opcode_table.json; a value that does not fit the 8 bits
of CMD is no command (R32, R222). -/
def decodeTableWord (nbits w : Nat) : Option Instr :=
  let v := tableWord nbits w
  if v < 256 then
    match decode (BitVec.ofNat 8 v) with
    | .ok i => some i
    | .error _ => none
  else none

end Sys2Proof
end

