-- ==== Sys2Proof/Config.lean ====
section
/-! DEFINITION. The parameters of an engine, fixed when it is built (00_scope.md R9; 92_eei_decisions.md, open
parameters). The constants that are the same in every engine (R10) are in Machine/Operands.lean. -/

namespace Sys2Proof

/-- `TAG_LEN`: "A TAG_LEN of 0, 16 or anything but 4 and 8 is not a configuration of this engine" (R160). -/
inductive TagLen
  /-- 4 bytes, "baseline compatibility", the default (R9). -/
  | four
  /-- 8 bytes, "hardened mode" (R9). -/
  | eight
deriving DecidableEq, Repr

/-- `MAC_MODE` (R9, R150; D2). -/
inductive MacMode
  /-- CMAC, the default (R154). -/
  | cmac
  /-- `PLAIN`: the raw CBC-MAC with zero padding (R155). -/
  | plain
deriving DecidableEq, Repr

/-- `BLOCK_CIPHER`: AES-128, or any other function of the type of R100 ("callers may substitute a conforming
implementation", R101). A substituted cipher is named by a number, so that a Config is plain data (log 5). -/
inductive BlockCipher
  /-- AES-128, the default (R101; D1). -/
  | aes128
  /-- Some other conforming cipher, `Config.substituteCipher id`. -/
  | substitute (id : Nat)
deriving DecidableEq, Repr

/-- The configuration record of R9. -/
structure Config where
  tagLen : TagLen
  cipher : BlockCipher
  macMode : MacMode
  marker : Byte
deriving DecidableEq, Repr

/-- The defaults of R9: TAG_LEN 4, AES-128, CMAC, Marker 0xE0 (D1, D2, D3; log 11). -/
def Config.default : Config where
  tagLen := .four
  cipher := .aes128
  macMode := .cmac
  marker := 0xE0

/-- The ciphers that may be substituted for AES-128: total functions, nothing else known of them
(R100, R101; 93_implementation_defined.md I1). DESIGN CHOICE, log 5: no body, so a claim that mentions one
holds whatever the cipher is. -/
opaque Config.substituteCipher : Nat → Key128 → Block128 → Block128

/-- The places a bus address can stand for: every register, every buffer byte at an offset that exists
(R21, R50, R59). -/
def Port.all : List Port :=
  [.reg .appkey, .reg .nwkkey, .reg .devaddr, .reg .fcnt, .reg .fctrl, .reg .fport, .reg .plen, .reg .flen,
    .reg .cmd, .reg .status]
  ++ (List.range 255).map (Port.byte .pbuf)
  ++ (List.range 255).map (Port.byte .fbuf)

/-- `REG_MAP`, OPEN (R59; D5): some injective map from names and buffer bytes to bus addresses. A claim about
addresses takes one as an argument (log 10). -/
structure RegMap where
  addr : Port → Nat
  injective : ∀ p ∈ Port.all, ∀ q ∈ Port.all, addr p = addr q → p = q

end Sys2Proof
end

