-- ==== Sys2Proof/Machine/State.lean ====
section
/-! DEFINITION. The state of one engine (10_state.md R20, R21), the outcomes that are not a next state, and the
state after reset (R39). -/

namespace Sys2Proof.Machine

/-- The contract violations of R218: "The two reasons below are the complete list." The machine TAKES a fault: it is
a next state in which `STATUS.FAULT` is set (60_exceptions.md R218, R221), and the reason is kept in `Status`, as R218
asks of a model. So no step answers `Outcome.fault`. -/
inductive Fault
  /-- A write to CMD of any value other than 0x01, 0x02, 0x05, 0x06 (R220), raised by `command`. Safe: the effect
  is the one R218 gives. -/
  | illegalCommand
  /-- A command whose required set holds a `⊥` (R219), raised by the four commands. Safe: the effect is the one R218
  gives. -/
  | unwrittenOperand
deriving DecidableEq, Repr

/-- The actions that do not exist at the interface, "the model has no transition for it" (R222), each under its own
name. Refusing is safe: "This errs toward unprovable" (R222). -/
inductive Refusal
  /-- An instruction without a meaning; no arm of this model answers it. Safe. -/
  | notModelled (mnemonic : String)
  /-- A read of APPKEY, NWKKEY or CMD; raised by `hostRead`. Safe. -/
  | noReadPath (r : RegName)
  /-- A write of STATUS; raised by `hostWrite`. Safe. -/
  | noWritePath (r : RegName)
  /-- An access to a buffer offset of 255 or more; raised by `hostWriteByte` and `hostReadByte`. Safe. -/
  | noSuchOffset (b : BufName) (k : Nat)
  /-- A write of a value wider than the register; raised by `hostWrite`. Safe. -/
  | valueTooWide (r : RegName)
  /-- A write of a value wider than a buffer byte; raised by `hostWriteByte`. Safe. -/
  | byteTooWide (b : BufName) (k : Nat)
  /-- A write of a byte-string register that is not a byte string of its whole length; raised by `hostWrite`. Safe. -/
  | partialWrite (r : RegName)
  /-- A write of a number register with a byte string (R54: such an access does not exist); raised by `hostWrite`.
  Safe. -/
  | notANumber (r : RegName)
  /-- A host read of a register that is `⊥`; raised by `hostRead`. Safe. -/
  | unwrittenRegister (r : RegName)
  /-- A host read of a buffer byte that is `⊥`; raised by `hostReadByte`. Safe. -/
  | unwrittenByte (b : BufName) (k : Nat)
deriving DecidableEq, Repr

/-- The error results of a command, complete (R211). -/
inductive ErrorCode
  | payloadTooLarge
  | frameTooShort
  | badMarker
  | authenticationFailed
deriving DecidableEq, Repr

/-- `STATUS.CODE`: the values 6 and 7 are never produced, so there is no such constructor (R35, R85;
93_implementation_defined.md I13). -/
inductive Code
  /-- No command has run since reset. -/
  | idle
  | ok
  | error (e : ErrorCode)
deriving DecidableEq, Repr

/-- `STATUS` (R35, R85): the bit FAULT is `fault ≠ none`, with the reason kept (R218); CODE is `code`. The byte the
host reads is `Status.toByte`. -/
structure Status where
  fault : Option Fault
  code : Code
deriving DecidableEq, Repr

/-- A buffer: the written bytes by offset, offsets strictly rising; a byte that is not listed is `⊥` (R22, R50). -/
abbrev Memory := List Host.Cell

/-- The state of one engine. A register that is `none` is `⊥`, unwritten (R22). CMD holds no value (R32), so it has no
field. The last three fields are the model's own (log 1, log 3, log 4). -/
structure State where
  appkey : Option Key128
  nwkkey : Option Key128
  devaddr : Option DevAddr
  fcnt : Option Half
  fctrl : Option Byte
  fport : Option Byte
  plen : Option Byte
  pbuf : Memory
  flen : Option Byte
  fbuf : Memory
  status : Status
  /-- The parameters of this engine: no step changes them (R9, R240). DESIGN CHOICE, log 4. -/
  config : Config
  /-- What the host will do, in program order (R33, R60). DESIGN CHOICE, log 1. -/
  pending : List HostAccess
  /-- What the host's reads have answered, oldest first. DESIGN CHOICE, log 3. -/
  received : List HostValue
deriving DecidableEq, Repr

/-- The state after reset (R39, R240): every register and buffer byte `⊥`, STATUS 0x00; the parameters are the
defaults of R9; the host has said nothing. -/
def State.reset : State where
  appkey := none
  nwkkey := none
  devaddr := none
  fcnt := none
  fctrl := none
  fport := none
  plen := none
  pbuf := []
  flen := none
  fbuf := []
  status := { fault := none, code := .idle }
  config := Config.default
  pending := []
  received := []

end Sys2Proof.Machine
end

