-- ==== Sys2Proof/Machine/Flags.lean ====
section
/-! DEFINITION. The status register: its codes and its byte, the engine's only flags (10_state.md R35; 30_encoding.md
R85). -/

namespace Sys2Proof.Machine

/-- The number of an error result (R85, R211). -/
def ErrorCode.bits : ErrorCode → BitVec 3
  | .payloadTooLarge => 2
  | .frameTooShort => 3
  | .badMarker => 4
  | .authenticationFailed => 5

/-- `STATUS.CODE`, bits 2 to 0 (R85). -/
def Code.bits : Code → BitVec 3
  | .idle => 0
  | .ok => 1
  | .error e => e.bits

/-- `STATUS.FAULT`, bit 7 (R85). -/
def Status.faultBit (st : Status) : BitVec 1 :=
  match st.fault with
  | none => 0
  | some _ => 1

/-- The byte a host reads from STATUS: FAULT, four zero bits, CODE (R35, R85). -/
def Status.toByte (st : Status) : Byte :=
  st.faultBit ++ (0 : BitVec 4) ++ st.code.bits

/-- `STATUS.FAULT = 1`. -/
def Status.faulted (st : Status) : Bool := st.fault.isSome

/-- Write CODE and leave FAULT (R180, R212). -/
def Status.withCode (st : Status) (c : Code) : Status := { st with code := c }

/-- Set FAULT, keep CODE, and keep the reason (R218). FAULT is sticky: a reason that is recorded stays. -/
def Status.withFault (st : Status) (f : Fault) : Status :=
  { st with fault := some (st.fault.getD f) }

end Sys2Proof.Machine
end

