-- ==== Sys2Proof/Machine/Ops.lean ====
section
/-! DEFINITION. The operations every meaning is made of: byte strings and blocks (00_scope.md R13, R14), MemRead and
MemWrite (R15), the entry of an error result and of a fault (60_exceptions.md R212, R218), and reset, the only thing that
undoes a fault (70_reset_and_hazards.md R240). -/

namespace Sys2Proof.Machine

/-! ### Byte strings and blocks -/

/-- The low byte of a 16-bit value (R14). -/
def lo8 (v : Half) : Byte := v.extractLsb' 0 8

/-- The high byte of a 16-bit value (R14). -/
def hi8 (v : Half) : Byte := v.extractLsb' 8 8

/-- The 16-bit value whose low byte is `lo`: `lo + 256 × hi` (R27, R53). -/
def halfOf (lo hi : Byte) : Half := hi ++ lo

/-- The block whose byte `k` is `f k`. -/
def mkBlock (f : Fin 16 → Byte) : Block128 :=
  #v[f 0, f 1, f 2, f 3, f 4, f 5, f 6, f 7, f 8, f 9, f 10, f 11, f 12, f 13, f 14, f 15]

/-- `zeros(16)` (R13). -/
def zeroBlock : Block128 := mkBlock fun _ => 0

/-- The exclusive or of two blocks, bytewise (R13, R204). -/
def xorBlock (a b : Block128) : Block128 := mkBlock fun k => a[k] ^^^ b[k]

/-- The exclusive or of two byte strings, as long as the shorter of them (R13). -/
def xorBytes (a b : Bytes) : Bytes := List.zipWith (· ^^^ ·) a b

/-- The leading 16 bytes of a byte string as a block, with zeros where it is shorter: `S ‖ zeros(16 − len(S))`
(R151, R155). -/
def blockOf (s : Bytes) : Block128 := mkBlock fun k => s.getD k.val 0

/-- Four bytes of a byte string as a device address (R193). -/
def devAddrOf (s : Bytes) : DevAddr := #v[s.getD 0 0, s.getD 1 0, s.getD 2 0, s.getD 3 0]

/-- `ceil(n/16)`, the number of blocks that `n` bytes are cut into (R15, R130). -/
def ceilBlocks (n : Nat) : Nat := (n + 15) / 16

/-! ### Buffers -/

/-- `BUF_CAP`: the offsets of a buffer are 0 to 254 (R10, R50). -/
def bufCap : Nat := 255

/-- What a byte that nothing has written reads as: `⊥` (R22, R39). -/
def Memory.unlisted (_ : Nat) : Option Byte := none

/-- The byte at an offset; `none` is `⊥` (R22). -/
def Memory.read : Memory → Nat → Option Byte
  | [], a => Memory.unlisted a
  | (x, v) :: rest, a => if x = a then some v else Memory.read rest a

/-- Make the byte at an offset written, and leave every other byte (R22, R56). -/
def Memory.write : Memory → Nat → Byte → Memory
  | [], a, b => [(a, b)]
  | (x, v) :: rest, a, b =>
    if a < x then (a, b) :: (x, v) :: rest
    else if a = x then (a, b) :: rest
    else (x, v) :: Memory.write rest a b

/-- `MemRead(BUF, off, n)` (R15); `none` where one of the bytes is `⊥`. -/
def Memory.readBytes (m : Memory) : Nat → Nat → Option Bytes
  | _, 0 => some []
  | off, n + 1 =>
    match m.read off, m.readBytes (off + 1) n with
    | some b, some rest => some (b :: rest)
    | _, _ => none

/-- `MemWrite(BUF, off, S)` (R15). -/
def Memory.writeBytes : Memory → Nat → Bytes → Memory
  | m, _, [] => m
  | m, off, b :: rest => Memory.writeBytes (m.write off b) (off + 1) rest

/-- The offsets of a list of cells are strictly rising and lie from `low` on, inside the buffer. -/
def Memory.risingFrom : Nat → Memory → Bool
  | _, [] => true
  | low, (x, _) :: rest => decide (low ≤ x) && decide (x < bufCap) && Memory.risingFrom (x + 1) rest

/-- The canonical form of a buffer: offsets strictly rising, all below 255 (R50). No cell can equal what an unlisted
byte reads as, since that is no value. -/
def Memory.wf (m : Memory) : Bool := Memory.risingFrom 0 m

/-- The buffer of a name (R50). -/
def State.buffer (s : State) : BufName → Memory
  | .pbuf => s.pbuf
  | .fbuf => s.fbuf

/-- Replace one buffer; the other keeps its bytes: "no offset of one aliases an offset of the other" (R50). -/
def State.setBuffer (s : State) (b : BufName) (m : Memory) : State :=
  match b with
  | .pbuf => { s with pbuf := m }
  | .fbuf => { s with fbuf := m }

/-! ### Taking an error, taking a fault, and reset -/

/-- `raise <Error>`: "It writes the error's code to STATUS.CODE, ends the command, and does nothing else" (R212).
Nothing is saved, so there is no return (R213). -/
def raiseError (e : ErrorCode) (s : State) : State :=
  { s with status := s.status.withCode (.error e) }

/-- `fault <Reason>`: sets STATUS.FAULT, "ends the action, and writes nothing else" (R218). -/
def takeFault (f : Fault) (s : State) : State :=
  { s with status := s.status.withFault f }

/-- `RESET` (R240): the state of R39, "the only thing that clears FAULT". The parameters of the engine are not changed
by it, and what the host has done and will do is not the engine's (log 1, log 3, log 4). -/
def resetEvent (s : State) : State :=
  { State.reset with config := s.config, pending := s.pending, received := s.received }

end Sys2Proof.Machine
end

