-- ==== Sys2Proof/Machine/Trace.lean ====
section
/-! DEFINITION. Values computed together with the list of unit operations that compute them: the trace of
70_reset_and_hazards.md R255, in which the constant-time requirement and the numbers of cipher calls are stated
(R136, R157, R256). The trace is no state: it is gone with the command (10_state.md R38; log 12). -/

namespace Sys2Proof.Machine

/-- The unit operations of R255, "each with its length operand only". -/
inductive UnitOp
  /-- One counter block is built (R120). -/
  | ctrblk
  /-- One call of the block cipher `E` (R100). -/
  | cipher
  /-- The authentication block is built, for a message of this length (R140). -/
  | authblk (msgLen : Nat)
  /-- One block step of MAC16, on a block of this many bytes (R151). -/
  | macBlock (len : Nat)
  /-- TRUNC to this many bytes (R160). -/
  | trunc (len : Nat)
  /-- TAGCMP of this many bytes begins (R165). -/
  | tagcmp (len : Nat)
  /-- One byte step of TAGCMP (R165). -/
  | tagByte
deriving DecidableEq, Repr

/-- A value and the unit operations that were performed for it, in order. -/
structure Traced (α : Type) where
  val : α
  ops : List UnitOp
deriving DecidableEq, Repr

/-- A value for which no unit operation is performed. -/
def Traced.pure {α : Type} (a : α) : Traced α := ⟨a, []⟩

/-- One unit operation and its value. -/
def Traced.unit {α : Type} (op : UnitOp) (a : α) : Traced α := ⟨a, [op]⟩

/-- First the one, then the other with its value. -/
def Traced.bind {α β : Type} (x : Traced α) (f : α → Traced β) : Traced β :=
  ⟨(f x.val).val, x.ops ++ (f x.val).ops⟩

/-- Apply a function for which no unit operation is performed. -/
def Traced.map {α β : Type} (f : α → β) (x : Traced α) : Traced β := ⟨f x.val, x.ops⟩

end Sys2Proof.Machine
end

