-- ==== Sys2Proof/Machine/Cipher.lean ====
section
/-! DEFINITION. The block cipher `E` (40_block_cipher.md): AES-128, encryption only (R8, R101 to R108), and the choice of
the configuration (R100). The definition of AES is the spec's own, "from general knowledge, not in source" (U1; log 11). -/

namespace Sys2Proof.Machine

/-! ### Bytes as elements of GF(2^8) (R103) -/

/-- Multiplication by `x`: a shift in 9 bits, reduced by 0x11B when bit 8 is set (R103). -/
def xtime (a : Byte) : Byte :=
  let t : BitVec 9 := a.setWidth 9 <<< 1
  let t := if t.getLsbD 8 then t ^^^ 0x11B else t
  t.setWidth 8

/-- `xtime^k(a)` (R103). -/
def xtimePow : Nat → Byte → Byte
  | 0, a => a
  | k + 1, a => xtime (xtimePow k a)

/-- The exclusive or of `xtime^k(a)` over the `k` below `n` for which bit `k` of `b` is 1. -/
def gfMulBelow (a b : Byte) : Nat → Byte
  | 0 => 0
  | n + 1 => if b.getLsbD n then gfMulBelow a b n ^^^ xtimePow n a else gfMulBelow a b n

/-- The product `a • b` (R103). -/
def gfMul (a b : Byte) : Byte := gfMulBelow a b 8

/-- `02 • a = xtime(a)` (R103). -/
def gfMul2 (a : Byte) : Byte := xtime a

/-- `03 • a = xtime(a) xor a` (R103). -/
def gfMul3 (a : Byte) : Byte := xtime a ^^^ a

/-! ### The S-box (R106) -/

/-- The S-box table as R106 prints it: row = high nibble, and in a row the entry of column 0 leftmost. -/
def sboxRows : List (BitVec 128) :=
  [0x637C777BF26B6FC53001672BFED7AB76,
   0xCA82C97DFA5947F0ADD4A2AF9CA472C0,
   0xB7FD9326363FF7CC34A5E5F171D83115,
   0x04C723C31896059A071280E2EB27B275]
  ++ [0x09832C1A1B6E5AA0523BD6B329E32F84,
   0x53D100ED20FCB15B6ACBBE394A4C58CF,
   0xD0EFAAFB434D338545F9027F503C9FA8,
   0x51A3408F929D38F5BCB6DA2110FFF3D2]
  ++ [0xCD0C13EC5F974417C4A77E3D645D1973,
   0x60814FDC222A908846EEB814DE5E0BDB,
   0xE0323A0A4906245CC2D3AC629195E479,
   0xE7C8376D8DD54EA96C56F4EA657AAE08]
  ++ [0xBA78252E1CA6B4C6E8DD741F4BBD8B8A,
   0x703EB5664803F60E613557B986C11D9E,
   0xE1F8981169D98E949B1E87E9CE5528DF,
   0x8CA1890DBFE6426841992D0FB054BB16]

/-- `SBOX[a]` (R106). -/
def sbox (a : Byte) : Byte :=
  (sboxRows.getD (a.toNat / 16) 0).extractLsb' (8 * (15 - a.toNat % 16)) 8

/-! ### The round steps (R105 to R108) -/

/-- `SubBytes` (R106). -/
def subBytes (s : Block128) : Block128 := mkBlock fun k => sbox s[k]

/-- `ShiftRows`: `out[r + 4c] = in[r + 4((c + r) mod 4)]` (R102, R107). -/
def shiftRows (s : Block128) : Block128 :=
  mkBlock fun k =>
    let r := k.val % 4
    let c := k.val / 4
    s[(r + 4 * ((c + r) % 4)) % 16]

/-- `MixColumns` (R108): byte `r` of column `c` from the four bytes of the column, starting at its own. -/
def mixColumns (s : Block128) : Block128 :=
  mkBlock fun k =>
    let r := k.val % 4
    let c := k.val / 4
    let a (j : Nat) : Byte := s[(4 * c + (r + j) % 4) % 16]
    gfMul2 (a 0) ^^^ gfMul3 (a 1) ^^^ a 2 ^^^ a 3

/-! ### Key expansion (R104) -/

/-- `Rcon[j]` for `j` from 1 to 10 (R104). -/
def rcon (j : Nat) : Byte :=
  ([0x01, 0x02, 0x04, 0x08, 0x10, 0x20, 0x40, 0x80, 0x1B, 0x36] : Bytes).getD (j - 1) 0

/-- The exclusive or of two key words. -/
def xorWord (a b : KeyWord) : KeyWord := #v[a[0] ^^^ b[0], a[1] ^^^ b[1], a[2] ^^^ b[2], a[3] ^^^ b[3]]

/-- `RotWord` (R104). -/
def rotWord (a : KeyWord) : KeyWord := #v[a[1], a[2], a[3], a[0]]

/-- `SubWord` (R104). -/
def subWord (a : KeyWord) : KeyWord := #v[sbox a[0], sbox a[1], sbox a[2], sbox a[3]]

/-- `w[j]` from `w[j−4]` and `w[j−1]` (R104). -/
def nextKeyWord (j : Nat) (back4 back1 : KeyWord) : KeyWord :=
  if j % 4 = 0 then xorWord back4 (xorWord (subWord (rotWord back1)) #v[rcon (j / 4), 0, 0, 0])
  else xorWord back4 back1

/-- The `n` key words from `w[j]` on, given `w[j−4]` to `w[j−1]` (R104). -/
def expandKeyFrom : Nat → Nat → KeyWord → KeyWord → KeyWord → KeyWord → List KeyWord
  | 0, _, _, _, _, _ => []
  | n + 1, j, a, b, c, d =>
    let w := nextKeyWord j a d
    w :: expandKeyFrom n (j + 1) b c d w

/-- The word of the key itself at `j`, for `j` from 0 to 3 (R104). -/
def keyWord (key : Key128) (j : Nat) : KeyWord :=
  #v[key[(4 * j) % 16], key[(4 * j + 1) % 16], key[(4 * j + 2) % 16], key[(4 * j + 3) % 16]]

/-- The 44 words `w[0..43]` of a key (R104). -/
def keyWords (key : Key128) : List KeyWord :=
  [keyWord key 0, keyWord key 1, keyWord key 2, keyWord key 3]
  ++ expandKeyFrom 40 4 (keyWord key 0) (keyWord key 1) (keyWord key 2) (keyWord key 3)

/-- Round key `r` of a key schedule: `w[4r] ‖ w[4r+1] ‖ w[4r+2] ‖ w[4r+3]` (R104). -/
def roundKey (ws : List KeyWord) (r : Nat) : Block128 :=
  mkBlock fun k => (ws.getD (4 * r + k.val / 4) #v[0, 0, 0, 0])[k.val % 4]'(Nat.mod_lt _ (by decide))

/-! ### The cipher (R105) -/

/-- `n` full rounds from round `r` on, then the last round, without MixColumns (R105). -/
def aesRounds (ws : List KeyWord) : Nat → Nat → Block128 → Block128
  | 0, r, s => xorBlock (shiftRows (subBytes s)) (roundKey ws r)
  | n + 1, r, s => aesRounds ws n (r + 1) (xorBlock (mixColumns (shiftRows (subBytes s))) (roundKey ws r))

/-- AES-128 encryption (R105). -/
def aes128 (key : Key128) (input : Block128) : Block128 :=
  aesRounds (keyWords key) 9 1 (xorBlock input (roundKey (keyWords key) 0))

/-- `E`, the block cipher of a configuration (R9, R100). -/
def blockCipher : BlockCipher → Key128 → Block128 → Block128
  | .aes128 => aes128
  | .substitute id => Config.substituteCipher id

/-- One call of a block cipher, as a unit operation (R88, R255). -/
def cipherT (E : Key128 → Block128 → Block128) (key : Key128) (x : Block128) : Traced Block128 :=
  Traced.unit .cipher (E key x)

end Sys2Proof.Machine
end

