-- ==== Sys2Proof/Machine/Blocks.lean ====
section
/-! DEFINITION. The counter-block builder CTRBLK (41_counter_block.md) and the authentication-block builder AUTHBLK
(43_auth_block.md), both from one block function (R123). -/

namespace Sys2Proof.Machine

/-- What a block is for (R80). -/
inductive BlockPurpose
  | keystream
  | auth
deriving DecidableEq, Repr

/-- The first byte of a block (R10, R80). -/
def BlockPurpose.code : BlockPurpose → Byte
  | .keystream => 0x01
  | .auth => 0x49

/-- The direction as the byte at offset 5 of a block: `zext_8(d)` (R76, R81). -/
def dirByte (d : Direction) : Byte := (Direction.bit d).setWidth 8

/-- `BLOCK(purpose, d, dev, fcnt, tail2)` (R123): bytes 0 to 13 are laid out alike in both kinds of block, and the two
tail bytes stand at 14 and 15 (R75, R78). -/
def purposeBlock (p : BlockPurpose) (d : Direction) (dev : DevAddr) (fcnt : Half) (t14 t15 : Byte) : Block128 :=
  #v[p.code, 0, 0, 0, 0, dirByte d, dev[0], dev[1], dev[2], dev[3], lo8 fcnt, hi8 fcnt, 0, 0, t14, t15]

/-- `CTRBLK(d, dev, fcnt, i)`, the counter block `A_i` (R75, R120). -/
def ctrblk (d : Direction) (dev : DevAddr) (fcnt : Half) (i : Half) : Block128 :=
  purposeBlock .keystream d dev fcnt (lo8 i) (hi8 i)

/-- `AUTHBLK(d, dev, fcnt, m)` for a length that fits its one byte, the block `B0` (R78, R140). -/
def authblk (d : Direction) (dev : DevAddr) (fcnt : Half) (m : Byte) : Block128 :=
  purposeBlock .auth d dev fcnt 0 m

/-- AUTHBLK as a function of its own, for any length: it refuses a length above 255 and does not reduce it (R142;
log 14). -/
def authblkOfLength (d : Direction) (dev : DevAddr) (fcnt : Half) (m : Nat) : Option Block128 :=
  if m ≤ 255 then some (authblk d dev fcnt (BitVec.ofNat 8 m)) else none

/-- CTRBLK as a unit operation (R255). -/
def ctrblkT (d : Direction) (dev : DevAddr) (fcnt : Half) (i : Half) : Traced Block128 :=
  Traced.unit .ctrblk (ctrblk d dev fcnt i)

/-- AUTHBLK as a unit operation, for a length of the codec, which is at most 251 and so is never reduced (R79, R142,
R255; log 14). -/
def authblkT (d : Direction) (dev : DevAddr) (fcnt : Half) (m : Nat) : Traced Block128 :=
  Traced.unit (.authblk m) (authblk d dev fcnt (BitVec.ofNat 8 m))

end Sys2Proof.Machine
end

