-- ==== Sys2Proof/Machine/Stream.lean ====
section
/-! DEFINITION. The stream cipher engine STREAM (42_stream_cipher.md). -/

namespace Sys2Proof.Machine

/-- Keystream block `i`: `S_i = E(K, A_i)` (R131). -/
def keystreamBlock (E : Key128 → Block128 → Block128) (K : Key128) (d : Direction) (dev : DevAddr) (fcnt : Half)
    (i : Nat) : Block128 :=
  E K (ctrblk d dev fcnt (BitVec.ofNat 16 i))

/-- `n` chunks of 16 bytes from block index `i` on; the last may be partial and uses only the leading bytes of its
keystream block (R130, R134). -/
def streamFromT (E : Key128 → Block128 → Block128) (K : Key128) (d : Direction) (dev : DevAddr) (fcnt : Half) :
    Nat → Nat → Bytes → Traced Bytes
  | 0, _, _ => Traced.pure []
  | n + 1, i, buf =>
    (ctrblkT d dev fcnt (BitVec.ofNat 16 i)).bind fun a =>
    (cipherT E K a).bind fun s =>
    (streamFromT E K d dev fcnt n (i + 1) (buf.drop 16)).map fun rest =>
    xorBytes (buf.take 16) s.toList ++ rest

/-- `STREAM(K, d, dev, fcnt, buf)` (R130), with its unit operations. -/
def streamT (E : Key128 → Block128 → Block128) (K : Key128) (d : Direction) (dev : DevAddr) (fcnt : Half)
    (buf : Bytes) : Traced Bytes :=
  streamFromT E K d dev fcnt (ceilBlocks buf.length) 0 buf

/-- `STREAM(K, d, dev, fcnt, buf)` (R130). Inside the codec `buf` is at most 242 bytes; on its own it is defined up to
2^20 bytes, see `streamUpTo`. -/
def stream (E : Key128 → Block128 → Block128) (K : Key128) (d : Direction) (dev : DevAddr) (fcnt : Half)
    (buf : Bytes) : Bytes :=
  (streamT E K d dev fcnt buf).val

/-- STREAM as a function of its own: more than `16 × 65536` bytes are refused rather than the block index wrapped
(R135; D23; log 14). -/
def streamUpTo (E : Key128 → Block128 → Block128) (K : Key128) (d : Direction) (dev : DevAddr) (fcnt : Half)
    (buf : Bytes) : Option Bytes :=
  if buf.length ≤ 16 * 65536 then some (stream E K d dev fcnt buf) else none

end Sys2Proof.Machine
end

