-- ==== Sys2Proof/Machine/Mac.lean ====
section
/-! DEFINITION. The MAC engine: MAC16 with its two modes, TRUNC and TAGCMP (44_mac_engine.md). -/

namespace Sys2Proof.Machine

/-! ### MAC16 -/

/-- `dbl(B)`: doubling in GF(2^128), byte 0 the most significant (R153). -/
def dbl (b : Block128) : Block128 :=
  mkBlock fun k =>
    if h : k.val < 15 then (b[k] <<< 1) ||| (b[k.val + 1] >>> 7)
    else (b[15] <<< 1) ^^^ (if 0x80 ≤ b[0].toNat then 0x87 else 0)

/-- The number of blocks before the last, when a byte string is cut into 16-byte blocks with 1 to 16 bytes in the last
(R151); 0 for the empty string. -/
def blocksBeforeLast (x : Bytes) : Nat := (x.length - 1) / 16

/-- The CBC-MAC chain over `n` full blocks and then the last block, which the mode prepares: `Y_k = E(K, Y_(k−1) xor X_k)`
(R151, R154, R155). -/
def macChainT (E : Key128 → Block128 → Block128) (K : Key128) (last : Bytes → Block128) :
    Nat → Block128 → Bytes → Traced Block128
  | 0, y, x =>
    (Traced.unit (.macBlock x.length) (xorBlock y (last x))).bind fun b => cipherT E K b
  | n + 1, y, x =>
    (Traced.unit (.macBlock 16) (xorBlock y (blockOf (x.take 16)))).bind fun b =>
    (cipherT E K b).bind fun y' =>
    macChainT E K last n y' (x.drop 16)

/-- The last block of CMAC: a full one is masked with `K1`; a short one is padded with 0x80 and zeros and masked with
`K2` (R154). -/
def cmacLast (k1 k2 : Block128) (x : Bytes) : Block128 :=
  if x.length = 16 then xorBlock (blockOf x) k1 else xorBlock (blockOf (x ++ [0x80])) k2

/-- `CMAC(K, X)` (R152, R154). -/
def cmacT (E : Key128 → Block128 → Block128) (K : Key128) (x : Bytes) : Traced Block128 :=
  (cipherT E K zeroBlock).bind fun l =>
  macChainT E K (cmacLast (dbl l) (dbl (dbl l))) (blocksBeforeLast x) zeroBlock x

/-- `CBCMAC0(K, X)`: the last block is padded with zeros, there are no subkeys (R155). -/
def cbcMac0T (E : Key128 → Block128 → Block128) (K : Key128) (x : Bytes) : Traced Block128 :=
  macChainT E K blockOf (blocksBeforeLast x) zeroBlock x

/-- `MAC16(K, X)` (R150), with its unit operations. -/
def mac16T (E : Key128 → Block128 → Block128) (mode : MacMode) (K : Key128) (x : Bytes) : Traced Block128 :=
  match mode with
  | .cmac => cmacT E K x
  | .plain => cbcMac0T E K x

/-- `MAC16(K, X)` (R150). -/
def mac16 (E : Key128 → Block128 → Block128) (mode : MacMode) (K : Key128) (x : Bytes) : Block128 :=
  (mac16T E mode K x).val

/-! ### TRUNC -/

/-- `TAG_LEN` as a number (R9, R160). -/
def tagLength : TagLen → Nat
  | .four => 4
  | .eight => 8

/-- `TRUNC(T16)`: the leading `TAG_LEN` bytes (R87, R160). -/
def trunc (t : TagLen) (t16 : Block128) : Bytes := t16.toList.take (tagLength t)

/-- TRUNC as a unit operation (R255). -/
def truncT (t : TagLen) (t16 : Block128) : Traced Bytes := Traced.unit (.trunc (tagLength t)) (trunc t t16)

/-! ### TAGCMP -/

/-- The byte steps of TAGCMP: always `n` of them, whatever the bytes are (R165, R255). -/
def tagStepsT : Nat → Byte → Bytes → Bytes → Traced Byte
  | 0, acc, _, _ => Traced.pure acc
  | n + 1, acc, a, b =>
    (Traced.unit .tagByte (acc ||| (a.headD 0 ^^^ b.headD 0))).bind fun acc' =>
    tagStepsT n acc' a.tail b.tail

/-- `TAGCMP(a, b)`: accumulate over all `TAG_LEN` bytes, then one decision (R165). -/
def tagcmpT (t : TagLen) (a b : Bytes) : Traced Bool :=
  (Traced.unit (.tagcmp (tagLength t)) ()).bind fun _ =>
  (tagStepsT (tagLength t) 0 a b).map fun acc => acc == 0

/-- `TAGCMP(a, b)` (R165). -/
def tagcmp (t : TagLen) (a b : Bytes) : Bool := (tagcmpT t a b).val

end Sys2Proof.Machine
end

