-- ==== Sys2Proof/Machine/Operands.lean ====
section
/-! DEFINITION. The constants of the engine (00_scope.md R10) and the operands of the two commands: what each reads, and
when one of them is unwritten (10_state.md R41; 60_exceptions.md R219). -/

namespace Sys2Proof.Machine

/-- `HEADER_LEN`, the Marker included (R10, R182; 90_conflicts.md C1). -/
def headerLen : Nat := 9

/-- `MAX_PAYLOAD = 255 − HEADER_LEN − TAG_LEN` (R10, R58). -/
def maxPayload (t : TagLen) : Nat := 255 - headerLen - tagLength t

/-- `MIN_FRAME = HEADER_LEN + TAG_LEN` (R10). -/
def minFrame (t : TagLen) : Nat := headerLen + tagLength t

/-- The header fields of a frame without its Marker (R72, R182). -/
structure Header where
  dev : DevAddr
  fctrl : Byte
  fcnt : Half
  fport : Byte
deriving DecidableEq, Repr

/-- The operands of ENCODE, all of them written (R185, R219). `payload` is `PBUF[0..PLEN)`; when PLEN is above
MAX_PAYLOAD no byte of PBUF is an operand, and it is empty. -/
structure EncodeOperands where
  appkey : Key128
  nwkkey : Key128
  header : Header
  plen : Nat
  payload : Bytes
deriving DecidableEq, Repr

/-- The operands of DECODE, all of them written (R190, R219): `wire` is `FBUF[0..FLEN)`. -/
structure DecodeOperands where
  appkey : Key128
  nwkkey : Key128
  wire : Bytes
deriving DecidableEq, Repr

/-- The payload bytes of ENCODE's required set: `PBUF[0..PLEN)` when `PLEN ≤ MAX_PAYLOAD`, else none at all (R219). -/
def payloadOperand (s : State) (plen : Nat) : Option Bytes :=
  if plen ≤ maxPayload s.config.tagLen then s.pbuf.readBytes 0 plen else some []

/-- ENCODE's required set, checked whole and first: `none` when any part of it is `⊥` (R219). The values are one
snapshot (R63). -/
def encodeOperands (s : State) : Option EncodeOperands := do
  let appkey ← s.appkey
  let nwkkey ← s.nwkkey
  let dev ← s.devaddr
  let fcnt ← s.fcnt
  let fctrl ← s.fctrl
  let fport ← s.fport
  let plen ← s.plen
  let payload ← payloadOperand s plen.toNat
  some { appkey, nwkkey, header := { dev, fctrl, fcnt, fport }, plen := plen.toNat, payload }

/-- DECODE's required set, checked whole and first: `none` when any part of it is `⊥` (R219). -/
def decodeOperands (s : State) : Option DecodeOperands := do
  let appkey ← s.appkey
  let nwkkey ← s.nwkkey
  let flen ← s.flen
  let wire ← s.fbuf.readBytes 0 flen.toNat
  some { appkey, nwkkey, wire }

end Sys2Proof.Machine
end

