-- ==== Sys2Proof/Machine/Codec.lean ====
section
/-! DEFINITION. The frame codec as functions of byte strings (45_frame_codec.md R182 to R199): the header, the tag, the
frame an ENCODE makes, and what a DECODE finds. -/

namespace Sys2Proof.Machine

/-- The 9-byte header `MARKER ‖ dev ‖ fctrl ‖ lo8(fcnt) ‖ hi8(fcnt) ‖ fport` (R72, R182). -/
def headerBytes (marker : Byte) (h : Header) : Bytes :=
  [marker, h.dev[0], h.dev[1], h.dev[2], h.dev[3], h.fctrl, lo8 h.fcnt, hi8 h.fcnt, h.fport]

/-- Tag generation: `TRUNC(MAC16(NWKKEY, AUTHBLK(d, dev, fcnt, m) ‖ M))`, the same for both commands (R168). -/
def tagT (cfg : Config) (nwkkey : Key128) (d : Direction) (dev : DevAddr) (fcnt : Half) (msgLen : Nat) (m : Bytes) :
    Traced Bytes :=
  (authblkT d dev fcnt msgLen).bind fun b0 =>
  (mac16T (blockCipher cfg.cipher) cfg.macMode nwkkey (b0.toList ++ m)).bind fun t16 =>
  truncT cfg.tagLen t16

/-- The value of tag generation (R168). -/
def tag (cfg : Config) (nwkkey : Key128) (d : Direction) (dev : DevAddr) (fcnt : Half) (msgLen : Nat) (m : Bytes) :
    Bytes :=
  (tagT cfg nwkkey d dev fcnt msgLen m).val

/-- Steps 2 to 5 of ENCODE up to the frame (R185): encrypt, then authenticate the ciphertext (R187). -/
def sealFrameT (cfg : Config) (d : Direction) (appkey nwkkey : Key128) (h : Header) (payload : Bytes) :
    Traced Bytes :=
  (streamT (blockCipher cfg.cipher) appkey d h.dev h.fcnt payload).bind fun c =>
  let m := headerBytes cfg.marker h ++ c
  (tagT cfg nwkkey d h.dev h.fcnt (headerLen + payload.length) m).map fun t =>
  m ++ t

/-- The frame of R185. -/
def sealFrame (cfg : Config) (d : Direction) (appkey nwkkey : Key128) (h : Header) (payload : Bytes) : Bytes :=
  (sealFrameT cfg d appkey nwkkey h payload).val

/-- What a DECODE that succeeds reports: "(frameControl, framePort, plaintext, frameCounter)" (R190, R197). -/
structure Opened where
  fctrl : Byte
  fport : Byte
  fcnt : Half
  payload : Bytes
deriving DecidableEq, Repr

/-- The five steps of DECODE (R190): length, marker, split by position, tag, and only then decryption (R195, R196). The
device address and the counter are the frame's own; the direction is not taken from the frame (R193). -/
def openFrameT (cfg : Config) (d : Direction) (appkey nwkkey : Key128) (f : Bytes) :
    Traced (Except ErrorCode Opened) :=
  if f.length < minFrame cfg.tagLen then Traced.pure (.error .frameTooShort)
  else if f.getD 0 0 ≠ cfg.marker then Traced.pure (.error .badMarker)
  else
    let n := f.length - headerLen - tagLength cfg.tagLen
    let dev := devAddrOf (f.drop 1)
    let fcnt := halfOf (f.getD 6 0) (f.getD 7 0)
    let c := (f.drop headerLen).take n
    let rtag := f.drop (headerLen + n)
    let m := f.take (headerLen + n)
    (tagT cfg nwkkey d dev fcnt (headerLen + n) m).bind fun etag =>
    (tagcmpT cfg.tagLen etag rtag).bind fun same =>
    if same then
      (streamT (blockCipher cfg.cipher) appkey d dev fcnt c).map fun p =>
      .ok { fctrl := f.getD 5 0, fport := f.getD 8 0, fcnt, payload := p }
    else Traced.pure (.error .authenticationFailed)

/-- The result of R190 on a byte string. -/
def openFrame (cfg : Config) (d : Direction) (appkey nwkkey : Key128) (f : Bytes) : Except ErrorCode Opened :=
  (openFrameT cfg d appkey nwkkey f).val

/-- DOC0's `Encode` as a function of its arguments, for a plaintext of any length (R30, R185, R186). -/
def encodeFunction (cfg : Config) (d : Direction) (appkey nwkkey : Key128) (h : Header) (plaintext : Bytes) :
    Except ErrorCode Bytes :=
  if plaintext.length > maxPayload cfg.tagLen then .error .payloadTooLarge
  else .ok (sealFrame cfg d appkey nwkkey h plaintext)

/-- DOC0's `Decode` as a function of its arguments. It is defined for at most 255 bytes; a longer input is refused
(`none`), and no error is invented for it (R55, R190; 91_not_in_source.md N9). -/
def decodeFunction (cfg : Config) (d : Direction) (appkey nwkkey : Key128) (wire : Bytes) :
    Option (Except ErrorCode Opened) :=
  if wire.length ≤ 255 then some (openFrame cfg d appkey nwkkey wire) else none

end Sys2Proof.Machine
end

