-- ==== Sys2Proof/Machine/Command.lean ====
section
/-! DEFINITION. One command as the host sees it: first everything is computed, then everything is written, as one
transition (10_state.md R33, R40; 45_frame_codec.md R180; 60_exceptions.md R214). -/

namespace Sys2Proof.Machine

/-- The ending of one command (R210, R214, R221), in the order of their priority. -/
inductive CommandResult
  /-- FAULT was 1: the write is ignored (R221). -/
  | ignored
  /-- The required set holds a `⊥` (R219). -/
  | faulted (f : Fault)
  /-- An error result (R211). -/
  | error (e : ErrorCode)
  /-- ENCODE succeeded, with this frame (R185). -/
  | framed (frame : Bytes)
  /-- DECODE succeeded, with these results (R197). -/
  | opened (o : Opened)
deriving DecidableEq, Repr

/-- ENCODE on a state (R180, R185, R214), with its unit operations. -/
def encodeRunT (d : Direction) (s : State) : Traced CommandResult :=
  if s.status.faulted then Traced.pure .ignored
  else match encodeOperands s with
    | none => Traced.pure (.faulted .unwrittenOperand)
    | some o =>
      if o.plen > maxPayload s.config.tagLen then Traced.pure (.error .payloadTooLarge)
      else (sealFrameT s.config d o.appkey o.nwkkey o.header o.payload).map .framed

/-- DECODE on a state (R180, R190, R214), with its unit operations. -/
def decodeRunT (d : Direction) (s : State) : Traced CommandResult :=
  if s.status.faulted then Traced.pure .ignored
  else match decodeOperands s with
    | none => Traced.pure (.faulted .unwrittenOperand)
    | some o =>
      (openFrameT s.config d o.appkey o.nwkkey o.wire).map fun r =>
        match r with
        | .error e => .error e
        | .ok x => .opened x

/-- A successful ENCODE "writes FBUF[0..L), FLEN and STATUS, and nothing else" (R40, R185). -/
def writeFrame (f : Bytes) (s : State) : State :=
  { s with
    fbuf := s.fbuf.writeBytes 0 f
    flen := some (BitVec.ofNat 8 f.length)
    status := s.status.withCode .ok }

/-- A successful DECODE "writes PBUF[0..N), PLEN, FCNT, FCTRL, FPORT and STATUS, and nothing else" (R40, R190). -/
def writeOpened (o : Opened) (s : State) : State :=
  { s with
    pbuf := s.pbuf.writeBytes 0 o.payload
    plen := some (BitVec.ofNat 8 o.payload.length)
    fctrl := some o.fctrl
    fport := some o.fport
    fcnt := some o.fcnt
    status := s.status.withCode .ok }

/-- What a command writes, for each of its endings (R40). -/
def commit : CommandResult → State → State
  | .ignored, s => s
  | .faulted f, s => takeFault f s
  | .error e, s => raiseError e s
  | .framed f, s => writeFrame f s
  | .opened o, s => writeOpened o s

end Sys2Proof.Machine
end

