-- ==== Sys2Proof/Machine/DecodeCommands.lean ====
section
/-! DEFINITION. The meanings of DECODE.UP and DECODE.DN (45_frame_codec.md R190 to R199). -/

namespace Sys2Proof.Machine

/-- `DECODE.UP`, word 0x02 (R190 with d = 0). -/
def execDecodeUp (s : State) : Host.Outcome State Fault Refusal :=
  .next (commit (decodeRunT .uplink s).val s)

/-- `DECODE.DN`, word 0x06 (R190 with d = 1). -/
def execDecodeDn (s : State) : Host.Outcome State Fault Refusal :=
  .next (commit (decodeRunT .downlink s).val s)

end Sys2Proof.Machine
end

