-- ==== Sys2Proof/Machine/EncodeCommands.lean ====
section
/-! DEFINITION. The meanings of ENCODE.UP and ENCODE.DN (45_frame_codec.md R185 to R189). -/

namespace Sys2Proof.Machine

/-- `ENCODE.UP`, word 0x01 (R185 with d = 0). -/
def execEncodeUp (s : State) : Host.Outcome State Fault Refusal :=
  .next (commit (encodeRunT .uplink s).val s)

/-- `ENCODE.DN`, word 0x05 (R185 with d = 1). -/
def execEncodeDn (s : State) : Host.Outcome State Fault Refusal :=
  .next (commit (encodeRunT .downlink s).val s)

end Sys2Proof.Machine
end

