-- ==== Sys2Proof/Machine/Dispatch.lean ====
section
/-! DEFINITION. One arm per command (30_encoding.md R83): what a write of its word to CMD does. -/

namespace Sys2Proof.Machine

def exec (i : Instr) (s : State) : Host.Outcome State Fault Refusal :=
  match i with
  | .encodeUp => Sys2Proof.Machine.execEncodeUp s
  | .encodeDn => Sys2Proof.Machine.execEncodeDn s
  | .decodeUp => Sys2Proof.Machine.execDecodeUp s
  | .decodeDn => Sys2Proof.Machine.execDecodeDn s

end Sys2Proof.Machine
end

