-- ==== Sys2Proof/Machine/Access.lean ====
section
/-! DEFINITION. The host's actions on the engine (10_state.md R21; 20_memory.md R51, R54, R56; 60_exceptions.md R220 to
R222). -/

namespace Sys2Proof.Machine

/-- A write of the word `w` to CMD (R32): ignored while FAULT is 1, then the word is decoded, then the command runs
(R214, R220, R221). -/
def command (w : Byte) (s : State) : Host.Outcome State Fault Refusal :=
  if s.status.faulted then .next s
  else match Sys2Proof.decode w with
    | .error _ => .next (takeFault .illegalCommand s)
    | .ok i => exec i s

/-- A host write of a register: "Writes to registers other than CMD only store the value" (R56). What does not exist
is refused (R222): STATUS has no write path, a number must fit its register, a byte string must have its length. -/
def hostWrite (r : RegName) (v : HostValue) (s : State) : Host.Outcome State Fault Refusal :=
  match r, v with
  | .cmd, .num n => if n < 2 ^ 8 then command (BitVec.ofNat 8 n) s else .refused (.valueTooWide .cmd)
  | .fcnt, .num n =>
    if n < 2 ^ 16 then .next { s with fcnt := some (BitVec.ofNat 16 n) } else .refused (.valueTooWide .fcnt)
  | .fctrl, .num n =>
    if n < 2 ^ 8 then .next { s with fctrl := some (BitVec.ofNat 8 n) } else .refused (.valueTooWide .fctrl)
  | .fport, .num n =>
    if n < 2 ^ 8 then .next { s with fport := some (BitVec.ofNat 8 n) } else .refused (.valueTooWide .fport)
  | .plen, .num n =>
    if n < 2 ^ 8 then .next { s with plen := some (BitVec.ofNat 8 n) } else .refused (.valueTooWide .plen)
  | .flen, .num n =>
    if n < 2 ^ 8 then .next { s with flen := some (BitVec.ofNat 8 n) } else .refused (.valueTooWide .flen)
  | .appkey, .str bs =>
    if bs.length = 16 then .next { s with appkey := some (blockOf bs) } else .refused (.partialWrite .appkey)
  | .nwkkey, .str bs =>
    if bs.length = 16 then .next { s with nwkkey := some (blockOf bs) } else .refused (.partialWrite .nwkkey)
  | .devaddr, .str bs =>
    if bs.length = 4 then .next { s with devaddr := some (devAddrOf bs) } else .refused (.partialWrite .devaddr)
  | .status, .num _ => .refused (.noWritePath .status)
  | .status, .str _ => .refused (.noWritePath .status)
  | .appkey, .num _ => .refused (.partialWrite .appkey)
  | .nwkkey, .num _ => .refused (.partialWrite .nwkkey)
  | .devaddr, .num _ => .refused (.partialWrite .devaddr)
  | .cmd, .str _ => .refused (.notANumber .cmd)
  | .fcnt, .str _ => .refused (.notANumber .fcnt)
  | .fctrl, .str _ => .refused (.notANumber .fctrl)
  | .fport, .str _ => .refused (.notANumber .fport)
  | .plen, .str _ => .refused (.notANumber .plen)
  | .flen, .str _ => .refused (.notANumber .flen)

/-- The value of a number register, or its refusal when it is `⊥` (R22, R222). -/
def readNumber {w : Nat} (r : RegName) (v : Option (BitVec w)) : Except Refusal HostValue :=
  match v with
  | some x => .ok (.num x.toNat)
  | none => .error (.unwrittenRegister r)

/-- The value a host read of a register answers (R21, R54); the keys and CMD have no read path (R23, R24, R32). -/
def readRegister (r : RegName) (s : State) : Except Refusal HostValue :=
  match r with
  | .appkey => .error (.noReadPath .appkey)
  | .nwkkey => .error (.noReadPath .nwkkey)
  | .cmd => .error (.noReadPath .cmd)
  | .devaddr =>
    match s.devaddr with
    | some dev => .ok (.str dev.toList)
    | none => .error (.unwrittenRegister .devaddr)
  | .fcnt => readNumber .fcnt s.fcnt
  | .fctrl => readNumber .fctrl s.fctrl
  | .fport => readNumber .fport s.fport
  | .plen => readNumber .plen s.plen
  | .flen => readNumber .flen s.flen
  | .status => .ok (.num s.status.toByte.toNat)

/-- The value a host read of a buffer byte answers (R51). -/
def readBufferByte (b : BufName) (k : Nat) (s : State) : Except Refusal HostValue :=
  if k < bufCap then
    match (s.buffer b).read k with
    | some v => .ok (.num v.toNat)
    | none => .error (.unwrittenByte b k)
  else .error (.noSuchOffset b k)

/-- The host takes note of the value a read answers; the engine is as before: "Reads have no side effects" (R56;
log 3). -/
def answer (r : Except Refusal HostValue) (s : State) : Host.Outcome State Fault Refusal :=
  match r with
  | .ok v => .next { s with received := s.received ++ [v] }
  | .error e => .refused e

/-- A host read of a register. -/
def hostRead (r : RegName) (s : State) : Host.Outcome State Fault Refusal := answer (readRegister r s) s

/-- A host read of a buffer byte. -/
def hostReadByte (b : BufName) (k : Nat) (s : State) : Host.Outcome State Fault Refusal :=
  answer (readBufferByte b k s) s

/-- A host write of a buffer byte (R51); the byte is then written (R22). -/
def hostWriteByte (b : BufName) (k v : Nat) (s : State) : Host.Outcome State Fault Refusal :=
  if k < bufCap then
    if v < 2 ^ 8 then .next (s.setBuffer b ((s.buffer b).write k (BitVec.ofNat 8 v)))
    else .refused (.byteTooWide b k)
  else .refused (.noSuchOffset b k)

/-- One action of the host. While FAULT is 1 all of them but the writes of CMD are performed as always (R221). -/
def perform (a : HostAccess) (s : State) : Host.Outcome State Fault Refusal :=
  match a with
  | .wr r v => hostWrite r v s
  | .rd r => hostRead r s
  | .wrb b k v => hostWriteByte b k v s
  | .rdb b k => hostReadByte b k s
  | .reset => .next (resetEvent s)

/-- One step: the next action of the host, whole (R33, R60). With none pending the engine is idle and stays as it is
(R228; log 1). -/
def stepHost (s : State) : Host.Outcome State Fault Refusal :=
  match s.pending with
  | [] => .next s
  | a :: rest => perform a { s with pending := rest }

/-- The write of a command word, put before everything the host will do (log 2). -/
def placeCommand (s : State) (v : Nat) : State :=
  { s with pending := .wr .cmd (.num v) :: s.pending }

end Sys2Proof.Machine
end

