-- ==== Sys2Proof/Machine/Step.lean ====
section
/-! DEFINITION. The step of the machine, and where the next command word comes from. The engine fetches nothing
(10_state.md R33): a command word reaches it in a host write of CMD, and a step performs the host's next action. -/

namespace Sys2Proof.Machine

/-- One step: the host's next action (R33, R60). -/
def step (s : State) : Host.Outcome State Fault Refusal := stepHost s

/-- The state in which the host's very next action is the write of this word to CMD (log 2). -/
def State.withFetchWord (s : State) (nbits w : Nat) : State :=
  placeCommand s (tableWord nbits w)

end Sys2Proof.Machine
end

