-- ==== Sys2Proof/Machine/Script.lean ====
section
/-! DEFINITION. The host-script notation and its pseudo-instructions (30_encoding.md R89, R90), wide buffer accesses
(20_memory.md R51), and accesses by bus address (R59). Each is a list of the host's actions; none adds a behaviour. -/

namespace Sys2Proof.Machine

/-- `ENCODE.UP` and the others as script lines: `WR CMD, <word>` (R89). -/
def scriptCommand (i : Instr) : HostAccess := .wr .cmd (.num (encode i).toNat)

/-- A wide write of a buffer: "the sequence of byte accesses at increasing offsets" (R51). -/
def wideWrite (b : BufName) : Nat → Bytes → List HostAccess
  | _, [] => []
  | k, v :: rest => .wrb b k v.toNat :: wideWrite b (k + 1) rest

/-- A wide read of `n` bytes of a buffer (R51). -/
def wideRead (b : BufName) (k n : Nat) : List HostAccess := (List.range n).map fun j => .rdb b (k + j)

/-- `FILLP <bytes>` (R90). -/
def fillp (bytes : Bytes) : List HostAccess := wideWrite .pbuf 0 bytes ++ [.wr .plen (.num bytes.length)]

/-- `FILLF <bytes>` (R90). -/
def fillf (bytes : Bytes) : List HostAccess := wideWrite .fbuf 0 bytes ++ [.wr .flen (.num bytes.length)]

/-- `KEYS <app>, <nwk>` (R90). -/
def keys (app nwk : Bytes) : List HostAccess := [.wr .appkey (.str app), .wr .nwkkey (.str nwk)]

/-- `HDR <dev>, <fctrl>, <fcnt>, <fport>` (R90). -/
def hdr (dev : Bytes) (fctrl fcnt fport : Nat) : List HostAccess :=
  [.wr .devaddr (.str dev), .wr .fctrl (.num fctrl), .wr .fcnt (.num fcnt), .wr .fport (.num fport)]

/-- The host's actions are put before everything it will do. -/
def withScript (s : State) (as : List HostAccess) : State := { s with pending := as ++ s.pending }

/-- The place a bus address stands for under a map (R59; log 10). -/
def portAt (m : RegMap) (a : Nat) : Option Port := Port.all.find? fun p => m.addr p == a

/-- A bus write to an address, as the host action on the place it stands for (R59); no place, no action. A buffer byte
is written with a number. -/
def busWrite (m : RegMap) (a : Nat) (v : HostValue) : Option HostAccess :=
  match portAt m a, v with
  | some (.reg r), v => some (.wr r v)
  | some (.byte b k), .num n => some (.wrb b k n)
  | some (.byte _ _), .str _ => none
  | none, _ => none

/-- A bus read of an address, as the host action on the place it stands for (R59). -/
def busRead (m : RegMap) (a : Nat) : Option HostAccess :=
  match portAt m a with
  | some (.reg r) => some (.rd r)
  | some (.byte b k) => some (.rdb b k)
  | none => none

end Sys2Proof.Machine
end

