-- ==== Sys2Proof/Safety.lean ====
section
/-! DEFINITION. The terms claims are made in: the invariant of the state, runs that end well, and short names for what
several rules speak of (60_exceptions.md R218, R222; 70_reset_and_hazards.md R255, R256). -/

namespace Sys2Proof

open Sys2Proof.Machine

/-- The invariant: both buffers are in canonical form, with offsets 0 to 254 only (20_memory.md R50). -/
def Machine.State.Inv (s : Machine.State) : Prop := s.pbuf.wf = true ∧ s.fbuf.wf = true

/-- `FAULT` = 0: "every claim about a host program takes 'FAULT = 0 at the end' as part of its postcondition" (R218). -/
def NoFault (s : Machine.State) : Prop := s.status.fault = none

/-- `t` is reached from `s` in some number of steps, each answering a next state. -/
inductive Reaches : Machine.State → Machine.State → Prop
  | refl (s : Machine.State) : Reaches s s
  | step (s t u : Machine.State) : Machine.step s = .next t → Reaches t u → Reaches s u

/-- The host's whole script has been performed and no contract was violated (R218). -/
def EndsWell (s t : Machine.State) : Prop := Reaches s t ∧ t.pending = [] ∧ NoFault t

/-- ENCODE in a direction: ENCODE.UP and ENCODE.DN (R83). -/
def encodeInstr : Direction → Instr
  | .uplink => .encodeUp
  | .downlink => .encodeDn

/-- DECODE in a direction: DECODE.UP and DECODE.DN (R83). -/
def decodeInstr : Direction → Instr
  | .uplink => .decodeUp
  | .downlink => .decodeDn

/-- A register is written, not `⊥` (R22). STATUS is never `⊥`, and CMD is a port that is never `⊥` (R32, R35). -/
def Machine.State.isWritten (s : Machine.State) : RegName → Bool
  | .appkey => s.appkey.isSome
  | .nwkkey => s.nwkkey.isSome
  | .devaddr => s.devaddr.isSome
  | .fcnt => s.fcnt.isSome
  | .fctrl => s.fctrl.isSome
  | .fport => s.fport.isSome
  | .plen => s.plen.isSome
  | .flen => s.flen.isSome
  | .cmd => true
  | .status => true

/-- The number of calls of `E` in a trace (R256). -/
def cipherCalls (ops : List UnitOp) : Nat := ops.count .cipher

/-- The part of a DECODE's trace before the first counter block is built: "up to and including TAGCMP" (R255). -/
def beforeKeystream (ops : List UnitOp) : List UnitOp := ops.takeWhile (· != .ctrblk)

/-- The trace of `n` keystream blocks (R136). -/
def keystreamOps (n : Nat) : List UnitOp := (List.replicate n [UnitOp.ctrblk, UnitOp.cipher]).flatten

/-- A block read as a 128-bit number, byte 0 the most significant (R53, R153). -/
def blockValue (b : Block128) : Nat := b.toList.foldl (fun n x => n * 256 + x.toNat) 0

end Sys2Proof
end

