-- ==== Sys2Proof/Certificates/Slice0/Obligations.lean ====
section
/-! DEFINITION. The statements for the provers: what spec/ says the engine does, file by file. -/

open Sys2Proof Sys2Proof.Machine

/-! ### The command word and STATUS (30_encoding.md) -/

/-- Encoding a command and decoding the word gives the command back, and a word that decodes is the word of its command
(R82, R83). -/
def Obligations.DecodeOfEncodeIsTheCommand : Prop :=
  (∀ i : Instr, i.wellFormed = true → decode (encode i) = .ok i) ∧
  ∀ (w : Byte) (i : Instr), decode w = .ok i → encode i = w

/-- R83: the four words of the map, written out bit by bit, and ENCODE and DECODE as match and mask. -/
def Obligations.CommandWordsOfTheMap : Prop :=
  decode 0b00000001 = .ok .encodeUp ∧ decode 0b00000101 = .ok .encodeDn ∧
  decode 0b00000010 = .ok .decodeUp ∧ decode 0b00000110 = .ok .decodeDn ∧
  ∀ w : Byte,
    (w &&& 0xFB = 0x01 ↔ decode w = .ok .encodeUp ∨ decode w = .ok .encodeDn) ∧
    (w &&& 0xFB = 0x02 ↔ decode w = .ok .decodeUp ∨ decode w = .ok .decodeDn)

/-- R84, R220: the decoder is total, every word is one of the four or illegal; and writing any other value of 8 bits to CMD
faults with IllegalCommand, whatever the operands are, and nothing but FAULT is written. -/
def Obligations.ReservedWordsFault : Prop :=
  (∀ w : Byte, (∃ i, decode w = .ok i) ↔ w = 0x01 ∨ w = 0x02 ∨ w = 0x05 ∨ w = 0x06) ∧
  ∀ (s : State) (w : Byte) (rest : List HostAccess),
    s.pending = .wr .cmd (.num w.toNat) :: rest → s.status.fault = none →
    w ≠ 0x01 → w ≠ 0x02 → w ≠ 0x05 → w ≠ 0x06 →
    step s = .next { s with pending := rest, status := { fault := some .illegalCommand, code := s.status.code } }

/-- R85: FAULT is bit 7, bits 6 to 3 are 0, bits 2 to 0 are CODE with the numbers of the table, and no other value is ever
read. -/
def Obligations.StatusByteHasItsLayout : Prop :=
  (∀ st : Status,
    (st.toByte.getLsbD 7 = true ↔ st.fault ≠ none) ∧ st.toByte.extractLsb' 3 4 = 0 ∧
    st.toByte.extractLsb' 0 3 = (match st.code with
      | .idle => 0
      | .ok => 1
      | .error .payloadTooLarge => 2
      | .error .frameTooShort => 3
      | .error .badMarker => 4
      | .error .authenticationFailed => 5)) ∧
  ∀ st : Status, st.toByte.toNat ≤ 0x05 ∨ (0x80 ≤ st.toByte.toNat ∧ st.toByte.toNat ≤ 0x85)

/-! ### The step (10_state.md R32, R33; 20_memory.md R60) -/

/-- A step whose next host action writes a command word to CMD is that command, in the state in which the action is no
longer pending. The form of the step (one host action, idle when there is none, a fault taken as a next state) is the
model's choice, log 1, log 2 and log 7. -/
def Obligations.StepRunsTheDecodedCommand : Prop :=
  (∀ (s : State) (n : Nat) (rest : List HostAccess) (i : Instr),
    s.pending = .wr .cmd (.num n) :: rest → n < 256 → decode (BitVec.ofNat 8 n) = .ok i →
    step s = exec i { s with pending := rest }) ∧
  (∀ (s : State) (w : Nat) (i : Instr), w < 256 → decodeTableWord 8 w = some i →
    step (s.withFetchWord 8 w) = exec i s) ∧
  (∀ s : State, s.pending = [] → step s = .next s) ∧
  ∀ (s : State) (f : Fault), step s ≠ .fault f

/-- What `exec` writes is what the traced run of the command ends in, so that a statement about the trace of the run is
one about the command that `exec` performs (log 12). -/
def Obligations.ExecCommitsTheTracedRun : Prop :=
  ∀ (d : Direction) (s : State),
    exec (encodeInstr d) s = .next (commit (encodeRunT d s).val s) ∧
    exec (decodeInstr d) s = .next (commit (decodeRunT d s).val s)

/-! ### ENCODE (45_frame_codec.md R185 to R189) -/

/-- R185: ENCODE.UP and ENCODE.DN, step by step. With every operand written and FAULT = 0, the frame
`Marker ‖ dev ‖ fctrl ‖ fcnt ‖ fport ‖ C ‖ Tag` is written to FBUF, its length to FLEN, and OK; or, when PLEN is too
large, PayloadTooLarge and nothing else. -/
def Obligations.EncodeWritesTheFrame : Prop :=
  ∀ (d : Direction) (s : State) (ka kn : Key128) (dev : DevAddr) (fcnt : Half) (fctrl fport n : Byte),
    s.status.fault = none → s.appkey = some ka → s.nwkkey = some kn → s.devaddr = some dev → s.fcnt = some fcnt →
    s.fctrl = some fctrl → s.fport = some fport → s.plen = some n →
    (∀ p : Bytes, n.toNat ≤ 255 - 9 - tagLength s.config.tagLen → s.pbuf.readBytes 0 n.toNat = some p →
      let E := blockCipher s.config.cipher
      let c := stream E ka d dev fcnt p
      let m := [s.config.marker, dev[0], dev[1], dev[2], dev[3], fctrl, lo8 fcnt, hi8 fcnt, fport] ++ c
      let b0 := authblk d dev fcnt (BitVec.ofNat 8 (9 + n.toNat))
      let tag := trunc s.config.tagLen (mac16 E s.config.macMode kn (b0.toList ++ m))
      9 + n.toNat + tagLength s.config.tagLen ≤ 255 ∧
      exec (encodeInstr d) s = .next { s with
        fbuf := s.fbuf.writeBytes 0 (m ++ tag)
        flen := some (BitVec.ofNat 8 (9 + n.toNat + tagLength s.config.tagLen))
        status := { s.status with code := .ok } }) ∧
    (n.toNat > 255 - 9 - tagLength s.config.tagLen →
      exec (encodeInstr d) s = .next { s with status := { s.status with code := .error .payloadTooLarge } })

/-- R186: ENCODE fails with PayloadTooLarge exactly when PLEN is above MAX_PAYLOAD; the largest payload makes a frame of
255 bytes; a payload that is too large makes no cipher call and writes CODE only. -/
def Obligations.EncodeSizeCheckIsExact : Prop :=
  ∀ (d : Direction) (s t : State) (n : Byte),
    s.status.fault = none → (encodeOperands s).isSome = true → s.plen = some n → exec (encodeInstr d) s = .next t →
    (t.status.code = .error .payloadTooLarge ↔ n.toNat > 255 - 9 - tagLength s.config.tagLen) ∧
    (t.status.code = .ok ↔ n.toNat ≤ 255 - 9 - tagLength s.config.tagLen) ∧
    (n.toNat = 255 - 9 - tagLength s.config.tagLen → t.flen = some 255) ∧
    (n.toNat > 255 - 9 - tagLength s.config.tagLen →
      t = { s with status := { s.status with code := .error .payloadTooLarge } } ∧
      cipherCalls (encodeRunT d s).ops = 0)

/-- R189 and the frame of ENCODE.UP and ENCODE.DN (R40): every operand is as it was; outside the stored bytes
`FBUF[0..9 + PLEN + TAG_LEN)` every byte of FBUF is as it was; when nothing is stored, FBUF and FLEN are as they were; of
STATUS only CODE changes, or only FAULT. -/
def Obligations.EncodeLeavesEverythingElse : Prop :=
  ∀ (d : Direction) (s t : State), exec (encodeInstr d) s = .next t →
    t.appkey = s.appkey ∧ t.nwkkey = s.nwkkey ∧ t.devaddr = s.devaddr ∧ t.fcnt = s.fcnt ∧ t.fctrl = s.fctrl ∧
    t.fport = s.fport ∧ t.plen = s.plen ∧ t.pbuf = s.pbuf ∧
    t.config = s.config ∧ t.pending = s.pending ∧ t.received = s.received ∧
    (t.status.fault = s.status.fault ∨
      (s.status.fault = none ∧ t.status.fault = some .unwrittenOperand ∧ t.status.code = s.status.code)) ∧
    (∀ n : Byte, s.plen = some n →
      ∀ a, 9 + n.toNat + tagLength s.config.tagLen ≤ a → t.fbuf.read a = s.fbuf.read a) ∧
    ((s.status.fault ≠ none ∨ encodeOperands s = none ∨
        ∃ n : Byte, s.plen = some n ∧ n.toNat > 255 - 9 - tagLength s.config.tagLen) →
      t.fbuf = s.fbuf ∧ t.flen = s.flen)

/-- R188: ENCODE of an empty payload makes the shortest frame, MIN_FRAME bytes, with `msgLen` 9, makes no keystream, and
does not look at PBUF, which may be wholly unwritten. -/
def Obligations.EncodeOfAnEmptyPayload : Prop :=
  ∀ (d : Direction) (s : State) (ka kn : Key128) (dev : DevAddr) (fcnt : Half) (fctrl fport : Byte),
    s.status.fault = none → s.appkey = some ka → s.nwkkey = some kn → s.devaddr = some dev → s.fcnt = some fcnt →
    s.fctrl = some fctrl → s.fport = some fport → s.plen = some 0 →
    let m : Bytes := [s.config.marker, dev[0], dev[1], dev[2], dev[3], fctrl, lo8 fcnt, hi8 fcnt, fport]
    ∃ t, exec (encodeInstr d) s = .next t ∧ t.status = { fault := none, code := .ok } ∧
      t.flen = some (BitVec.ofNat 8 (minFrame s.config.tagLen)) ∧
      t.fbuf.readBytes 0 (9 + tagLength s.config.tagLen) =
        some (m ++ trunc s.config.tagLen
          (mac16 (blockCipher s.config.cipher) s.config.macMode kn ((authblk d dev fcnt 9).toList ++ m))) ∧
      UnitOp.ctrblk ∉ (encodeRunT d s).ops

/-- R72: the frame by offset, for every payload that ENCODE accepts. -/
def Obligations.FrameLayoutByOffset : Prop :=
  ∀ (cfg : Config) (d : Direction) (ka kn : Key128) (dev : DevAddr) (fctrl fport : Byte) (fcnt : Half) (p : Bytes),
    p.length ≤ maxPayload cfg.tagLen →
    let f := sealFrame cfg d ka kn { dev, fctrl, fcnt, fport } p
    let ct := stream (blockCipher cfg.cipher) ka d dev fcnt p
    let t16 := mac16 (blockCipher cfg.cipher) cfg.macMode kn
      ((authblk d dev fcnt (BitVec.ofNat 8 (9 + p.length))).toList ++ f.take (9 + p.length))
    f.length = 9 + p.length + tagLength cfg.tagLen ∧ f.length ≤ 255 ∧
    f[0]? = some cfg.marker ∧
    (∀ k : Fin 4, f[1 + k.val]? = some dev[k]) ∧
    f[5]? = some fctrl ∧
    f[6]? = some (BitVec.ofNat 8 (fcnt.toNat % 256)) ∧ f[7]? = some (BitVec.ofNat 8 (fcnt.toNat / 256)) ∧
    f[8]? = some fport ∧
    ct.length = p.length ∧ (∀ j, j < p.length → f[9 + j]? = ct[j]?) ∧
    ∀ k, k < tagLength cfg.tagLen → f[9 + p.length + k]? = t16.toList[k]?

/-! ### DECODE (45_frame_codec.md R190 to R199) -/

/-- R197: a DECODE.UP or DECODE.DN whose three checks pass. The keys, FLEN and `FBUF[0..FLEN)` written and FAULT = 0, the
frame long enough, its first byte the Marker, its last TAG_LEN bytes the tag recomputed from its own address and counter
and the command's direction: the plaintext goes to PBUF with its length in PLEN, the header fields to FCTRL, FPORT and FCNT,
CODE is OK, and nothing else is written. -/
def Obligations.DecodeReturnsThePlaintext : Prop :=
  ∀ (d : Direction) (s : State) (ka kn : Key128) (l : Byte) (f : Bytes),
    s.status.fault = none → s.appkey = some ka → s.nwkkey = some kn → s.flen = some l →
    s.fbuf.readBytes 0 l.toNat = some f →
    9 + tagLength s.config.tagLen ≤ l.toNat → f.getD 0 0 = s.config.marker →
    let E := blockCipher s.config.cipher
    let n := l.toNat - 9 - tagLength s.config.tagLen
    let dev : DevAddr := #v[f.getD 1 0, f.getD 2 0, f.getD 3 0, f.getD 4 0]
    let fcnt : Half := BitVec.ofNat 16 ((f.getD 6 0).toNat + 256 * (f.getD 7 0).toNat)
    let b0 := authblk d dev fcnt (BitVec.ofNat 8 (9 + n))
    trunc s.config.tagLen (mac16 E s.config.macMode kn (b0.toList ++ f.take (9 + n))) = f.drop (9 + n) →
    exec (decodeInstr d) s = .next { s with
      pbuf := s.pbuf.writeBytes 0 (stream E ka d dev fcnt ((f.drop 9).take n))
      plen := some (BitVec.ofNat 8 n)
      fctrl := some (f.getD 5 0)
      fport := some (f.getD 8 0)
      fcnt := some fcnt
      status := { s.status with code := .ok } }

/-- R191, R192, R196: the three checks in the order length, marker, tag; the first that fails gives its code, and only the
code is written. -/
def Obligations.DecodeReportsTheFirstFailingCheck : Prop :=
  ∀ (d : Direction) (s : State) (ka kn : Key128) (l : Byte) (f : Bytes),
    s.status.fault = none → s.appkey = some ka → s.nwkkey = some kn → s.flen = some l →
    s.fbuf.readBytes 0 l.toNat = some f →
    let n := l.toNat - 9 - tagLength s.config.tagLen
    let dev : DevAddr := #v[f.getD 1 0, f.getD 2 0, f.getD 3 0, f.getD 4 0]
    let fcnt : Half := BitVec.ofNat 16 ((f.getD 6 0).toNat + 256 * (f.getD 7 0).toNat)
    let b0 := authblk d dev fcnt (BitVec.ofNat 8 (9 + n))
    (l.toNat < 9 + tagLength s.config.tagLen →
      exec (decodeInstr d) s = .next { s with status := { s.status with code := .error .frameTooShort } } ∧
      cipherCalls (decodeRunT d s).ops = 0) ∧
    (9 + tagLength s.config.tagLen ≤ l.toNat → f.getD 0 0 ≠ s.config.marker →
      exec (decodeInstr d) s = .next { s with status := { s.status with code := .error .badMarker } } ∧
      cipherCalls (decodeRunT d s).ops = 0) ∧
    (9 + tagLength s.config.tagLen ≤ l.toNat → f.getD 0 0 = s.config.marker →
      trunc s.config.tagLen (mac16 (blockCipher s.config.cipher) s.config.macMode kn (b0.toList ++ f.take (9 + n)))
        ≠ f.drop (9 + n) →
      exec (decodeInstr d) s = .next { s with status := { s.status with code := .error .authenticationFailed } })

/-- R195: on AuthenticationFailed no counter block is built, PBUF, PLEN, FCTRL, FPORT and FCNT keep their values, and APPKEY is
not used: with any other application key the command does the same. -/
def Obligations.NoDecryptionBeforeAuthentication : Prop :=
  ∀ (d : Direction) (s t : State), s.status.fault = none → exec (decodeInstr d) s = .next t →
    t.status = { fault := none, code := .error .authenticationFailed } →
    UnitOp.ctrblk ∉ (decodeRunT d s).ops ∧
    t.pbuf = s.pbuf ∧ t.plen = s.plen ∧ t.fctrl = s.fctrl ∧ t.fport = s.fport ∧ t.fcnt = s.fcnt ∧
    ∀ ka : Key128, exec (decodeInstr d) { s with appkey := some ka } = .next { t with appkey := some ka }

/-- The frame of DECODE.UP and DECODE.DN (R40, R197): keys, DEVADDR, FBUF and FLEN are as they were; outside the stored bytes
`PBUF[0..FLEN − 9 − TAG_LEN)` every byte of PBUF is as it was; unless the command ends in OK, no result is written; of
STATUS only CODE changes, or only FAULT. -/
def Obligations.DecodeLeavesEverythingElse : Prop :=
  ∀ (d : Direction) (s t : State), exec (decodeInstr d) s = .next t →
    t.appkey = s.appkey ∧ t.nwkkey = s.nwkkey ∧ t.devaddr = s.devaddr ∧ t.flen = s.flen ∧ t.fbuf = s.fbuf ∧
    t.config = s.config ∧ t.pending = s.pending ∧ t.received = s.received ∧
    (t.status.fault = s.status.fault ∨
      (s.status.fault = none ∧ t.status.fault = some .unwrittenOperand ∧ t.status.code = s.status.code)) ∧
    (∀ l : Byte, s.flen = some l →
      ∀ a, l.toNat - 9 - tagLength s.config.tagLen ≤ a → t.pbuf.read a = s.pbuf.read a) ∧
    ((s.status.fault ≠ none ∨ t.status.fault ≠ none ∨ t.status.code ≠ .ok) →
      t.pbuf = s.pbuf ∧ t.plen = s.plen ∧ t.fctrl = s.fctrl ∧ t.fport = s.fport ∧ t.fcnt = s.fcnt)

/-- R199: a DECODE of a frame of MIN_FRAME bytes that succeeds leaves PLEN 0 and writes no byte of PBUF. -/
def Obligations.DecodeOfAnEmptyPayload : Prop :=
  ∀ (d : Direction) (s t : State) (l : Byte), s.status.fault = none → s.flen = some l →
    l.toNat = minFrame s.config.tagLen → exec (decodeInstr d) s = .next t →
    t.status = { fault := none, code := .ok } → t.plen = some 0 ∧ t.pbuf = s.pbuf

/-- R198: there is no replay check. A DECODE that succeeded succeeds again on the same frame and changes nothing more, and it
succeeds with the same results whatever counter FCNT held before. The buffers are in canonical form, so that equal contents are equal data (StepKeepsTheBuffersCanonical). -/
def Obligations.ReplayedFrameIsAccepted : Prop :=
  ∀ (d : Direction) (s t : State), s.Inv → s.status.fault = none → exec (decodeInstr d) s = .next t →
    t.status = { fault := none, code := .ok } →
    exec (decodeInstr d) t = .next t ∧ ∀ c : Option Half, exec (decodeInstr d) { s with fcnt := c } = .next t

/-! ### ENCODE and DECODE together (R181, R200, R201, R212, R215) -/

/-- R200: from a state in which an ENCODE succeeds, ENCODE and then DECODE in the same direction end in OK and leave FCTRL,
FPORT, FCNT, PLEN and `PBUF[0..PLEN)` as they were before the ENCODE, for every choice of the parameters. -/
def Obligations.EncodeThenDecodeGivesTheInputsBack : Prop :=
  ∀ (d : Direction) (s t : State), s.status.fault = none → exec (encodeInstr d) s = .next t →
    t.status = { fault := none, code := .ok } →
    ∃ u, exec (decodeInstr d) t = .next u ∧ u.status = { fault := none, code := .ok } ∧
      u.fctrl = s.fctrl ∧ u.fport = s.fport ∧ u.fcnt = s.fcnt ∧ u.plen = s.plen ∧
      ∀ n : Byte, s.plen = some n → ∀ k, k < n.toNat → u.pbuf.read k = s.pbuf.read k

/-- R11, R244: a frame made by one engine and received by another with the same parameters and the same two keys, in the same
direction, is accepted there, and the receiver's FCTRL, FPORT, FCNT, PLEN and `PBUF[0..PLEN)` are the sender's, whatever else
the two engines hold. -/
def Obligations.TwoEnginesWithTheSameKeysInteroperate : Prop :=
  ∀ (d : Direction) (s t r : State), s.status.fault = none → exec (encodeInstr d) s = .next t →
    t.status = { fault := none, code := .ok } →
    r.status.fault = none → r.config = s.config → r.appkey = s.appkey → r.nwkkey = s.nwkkey → r.flen = t.flen →
    (∀ l : Byte, t.flen = some l → ∀ k, k < l.toNat → r.fbuf.read k = t.fbuf.read k) →
    ∃ u, exec (decodeInstr d) r = .next u ∧ u.status = { fault := none, code := .ok } ∧
      u.fctrl = s.fctrl ∧ u.fport = s.fport ∧ u.fcnt = s.fcnt ∧ u.plen = s.plen ∧ u.devaddr = r.devaddr ∧
      ∀ n : Byte, s.plen = some n → ∀ k, k < n.toNat → u.pbuf.read k = s.pbuf.read k

/-- The exact part of R201: a frame whose Marker was changed gives BadMarker, and a frame that was changed in its tag bytes
only gives AuthenticationFailed, always. -/
def Obligations.ChangedMarkerOrTagIsRejected : Prop :=
  ∀ (cfg : Config) (d : Direction) (ka kn ka' : Key128) (h : Header) (p f : Bytes),
    p.length ≤ maxPayload cfg.tagLen → f.length = (sealFrame cfg d ka kn h p).length →
    (f.getD 0 0 ≠ cfg.marker → openFrame cfg d ka' kn f = .error .badMarker) ∧
    (f.take (9 + p.length) = (sealFrame cfg d ka kn h p).take (9 + p.length) → f ≠ sealFrame cfg d ka kn h p →
      openFrame cfg d ka' kn f = .error .authenticationFailed)

/-- R181: the result of a command depends on its read set and the parameters only. Two engines whose read sets agree end
alike and write the same results, whatever the rest of their states is. -/
def Obligations.ResultDependsOnlyOnTheReadSet : Prop :=
  (∀ (d : Direction) (s₁ s₂ t₁ t₂ : State),
    s₁.config = s₂.config → s₁.status.fault = none → s₂.status.fault = none →
    s₁.appkey = s₂.appkey → s₁.nwkkey = s₂.nwkkey → s₁.devaddr = s₂.devaddr → s₁.fcnt = s₂.fcnt →
    s₁.fctrl = s₂.fctrl → s₁.fport = s₂.fport → s₁.plen = s₂.plen →
    (∀ n : Byte, s₁.plen = some n → ∀ k, k < n.toNat → s₁.pbuf.read k = s₂.pbuf.read k) →
    exec (encodeInstr d) s₁ = .next t₁ → exec (encodeInstr d) s₂ = .next t₂ →
    t₁.status.fault = t₂.status.fault ∧
    (t₁.status.fault = none → t₁.status.code = t₂.status.code) ∧
    (t₁.status = { fault := none, code := .ok } → t₁.flen = t₂.flen ∧
      ∀ l : Byte, t₁.flen = some l → ∀ k, k < l.toNat → t₁.fbuf.read k = t₂.fbuf.read k)) ∧
  ∀ (d : Direction) (s₁ s₂ t₁ t₂ : State),
    s₁.config = s₂.config → s₁.status.fault = none → s₂.status.fault = none →
    s₁.appkey = s₂.appkey → s₁.nwkkey = s₂.nwkkey → s₁.flen = s₂.flen →
    (∀ l : Byte, s₁.flen = some l → ∀ k, k < l.toNat → s₁.fbuf.read k = s₂.fbuf.read k) →
    exec (decodeInstr d) s₁ = .next t₁ → exec (decodeInstr d) s₂ = .next t₂ →
    t₁.status.fault = t₂.status.fault ∧
    (t₁.status.fault = none → t₁.status.code = t₂.status.code) ∧
    (t₁.status = { fault := none, code := .ok } →
      t₁.plen = t₂.plen ∧ t₁.fctrl = t₂.fctrl ∧ t₁.fport = t₂.fport ∧ t₁.fcnt = t₂.fcnt ∧
      ∀ n : Byte, t₁.plen = some n → ∀ k, k < n.toNat → t₁.pbuf.read k = t₂.pbuf.read k)

/-- R212: the state after an error equals the state before the command except for STATUS.CODE, for all four commands. -/
def Obligations.ErrorWritesOnlyItsCode : Prop :=
  ∀ (i : Instr) (s t : State) (e : ErrorCode), s.status.fault = none → exec i s = .next t →
    t.status = { fault := none, code := .error e } →
    t = { s with status := { fault := none, code := .error e } }

/-- R215: with its operands written, DECODE ends in OK or in one of its three errors for every FLEN and every content of FBUF,
and ENCODE in OK or PayloadTooLarge for every PLEN and every content of its operands: no data causes a fault. -/
def Obligations.CommandsEndOnEveryInput : Prop :=
  (∀ (d : Direction) (s : State) (ka kn : Key128) (l : Byte) (f : Bytes),
    s.status.fault = none → s.appkey = some ka → s.nwkkey = some kn → s.flen = some l →
    s.fbuf.readBytes 0 l.toNat = some f →
    ∃ t, exec (decodeInstr d) s = .next t ∧ t.status.fault = none ∧
      (t.status.code = .ok ∨ t.status.code = .error .frameTooShort ∨ t.status.code = .error .badMarker ∨
        t.status.code = .error .authenticationFailed)) ∧
  ∀ (d : Direction) (s : State) (ka kn : Key128) (dev : DevAddr) (fcnt : Half) (fctrl fport n : Byte) (p : Bytes),
    s.status.fault = none → s.appkey = some ka → s.nwkkey = some kn → s.devaddr = some dev → s.fcnt = some fcnt →
    s.fctrl = some fctrl → s.fport = some fport → s.plen = some n → s.pbuf.readBytes 0 n.toNat = some p →
    ∃ t, exec (encodeInstr d) s = .next t ∧ t.status.fault = none ∧
      (t.status.code = .ok ∨ t.status.code = .error .payloadTooLarge)

/-! ### Faults (60_exceptions.md R218 to R222) -/

/-- R219: a legal command faults with UnwrittenOperand exactly when some part of its required set is `⊥`, whatever it would go
on to do; FAULT is set and nothing else is written. -/
def Obligations.UnwrittenOperandFaults : Prop :=
  ∀ (d : Direction) (s : State), s.status.fault = none →
    (exec (encodeInstr d) s = .next { s with status := { fault := some .unwrittenOperand, code := s.status.code } } ↔
      s.appkey = none ∨ s.nwkkey = none ∨ s.devaddr = none ∨ s.fcnt = none ∨ s.fctrl = none ∨ s.fport = none ∨
      s.plen = none ∨
      ∃ (n : Byte) (k : Nat), s.plen = some n ∧ n.toNat ≤ 255 - 9 - tagLength s.config.tagLen ∧ k < n.toNat ∧
        s.pbuf.read k = none) ∧
    (exec (decodeInstr d) s = .next { s with status := { fault := some .unwrittenOperand, code := s.status.code } } ↔
      s.appkey = none ∨ s.nwkkey = none ∨ s.flen = none ∨
      ∃ (l : Byte) (k : Nat), s.flen = some l ∧ k < l.toNat ∧ s.fbuf.read k = none)

/-- R218: a fault sets FAULT, keeps CODE and writes nothing else; and FAULT is sticky: every step but RESET keeps it, RESET
clears it. -/
def Obligations.FaultIsStickyAndWritesNothingElse : Prop :=
  ∀ (s t : State), step s = .next t →
    (∀ f : Fault, s.status.fault = none → t.status.fault = some f →
      t = { s with pending := s.pending.tail, status := { fault := some f, code := s.status.code } }) ∧
    (∀ f : Fault, s.status.fault = some f → s.pending.head? ≠ some .reset → t.status.fault = some f) ∧
    (s.pending.head? = some .reset → t.status.fault = none)

/-- R221: while FAULT = 1 every write to CMD is ignored and every command does nothing; every other host action but RESET is
performed as it is while FAULT = 0, the host can read STATUS, and no step but RESET lifts the fault. -/
def Obligations.FaultedEngineIgnoresCommands : Prop :=
  (∀ (s : State) (n : Nat) (rest : List HostAccess), s.status.fault ≠ none →
    s.pending = .wr .cmd (.num n) :: rest → n < 256 → step s = .next { s with pending := rest }) ∧
  (∀ (i : Instr) (s : State), s.status.fault ≠ none → exec i s = .next s) ∧
  (∀ (a : HostAccess) (s t : State) (st : Status), (∀ v, a ≠ .wr .cmd v) → a ≠ .rd .status → a ≠ .reset →
    perform a s = .next t → perform a { s with status := st } = .next { t with status := st }) ∧
  (∀ s : State, perform (.rd .status) s =
    .next { s with received := s.received ++ [.num s.status.toByte.toNat] }) ∧
  ∀ s t : State, s.status.fault ≠ none → s.pending.head? ≠ some .reset → step s = .next t →
    t.status.fault = s.status.fault

/-- R222: a step is refused exactly when its host action does not exist at the interface, or reads a register or a buffer
byte that is `⊥`. -/
def Obligations.RefusedExactlyWhereNoActionExists : Prop :=
  ∀ (s : State) (a : HostAccess) (rest : List HostAccess), s.pending = a :: rest →
    ((∃ r, step s = .refused r) ↔
      a.wellFormed = false ∨ (∃ r, a = .rd r ∧ s.isWritten r = false) ∨
      ∃ b k, a = .rdb b k ∧ (s.buffer b).read k = none)

/-! ### The state: reset, registers, buffers (10_state.md, 20_memory.md, 70_reset_and_hazards.md) -/

/-- The buffers stay in canonical form, with offsets 0 to 254 only, under every step (20_memory.md R50). -/
def Obligations.StepKeepsTheBuffersCanonical : Prop :=
  ∀ s t : State, s.Inv → step s = .next t → t.Inv

/-- The buffers are in canonical form after reset. -/
def Obligations.ResetMeetsTheInvariant : Prop := State.reset.Inv

/-- R39: after RESET every register and every buffer byte is `⊥`, STATUS is 0x00, and the parameters are unchanged. -/
def Obligations.ResetEventGivesTheResetState : Prop :=
  ∀ (s : State) (rest : List HostAccess), s.pending = .reset :: rest →
    ∃ t, step s = .next t ∧
      t.appkey = none ∧ t.nwkkey = none ∧ t.devaddr = none ∧ t.fcnt = none ∧ t.fctrl = none ∧ t.fport = none ∧
      t.plen = none ∧ t.flen = none ∧ (∀ a, t.pbuf.read a = none) ∧ (∀ a, t.fbuf.read a = none) ∧
      t.status = { fault := none, code := .idle } ∧ t.status.toByte = 0x00 ∧ t.config = s.config

/-- "Nothing but reset makes a written register ⊥ again" (R22), nor a buffer byte: under every other step what is written
stays written. -/
def Obligations.OnlyResetUnwrites : Prop :=
  ∀ s t : State, step s = .next t → s.pending.head? ≠ some .reset →
    (∀ r, s.isWritten r = true → t.isWritten r = true) ∧
    ∀ b k, (s.buffer b).read k ≠ none → (t.buffer b).read k ≠ none

/-- The key registers keep their values until the host overwrites them or resets the engine (R25), and the parameters of the
engine are constant under every step (R9). -/
def Obligations.KeysAndParametersKeepTheirValues : Prop :=
  ∀ s t : State, step s = .next t →
    t.config = s.config ∧
    (t.appkey ≠ s.appkey → s.pending.head? = some .reset ∨ ∃ v, s.pending.head? = some (.wr .appkey v)) ∧
    (t.nwkkey ≠ s.nwkkey → s.pending.head? = some .reset ∨ ∃ v, s.pending.head? = some (.wr .nwkkey v))

/-- The key registers and CMD have no read path (R23, R24, R32), and what any host read answers does not depend on the keys. -/
def Obligations.KeysAreNeverReadBack : Prop :=
  (∀ s : State, perform (.rd .appkey) s = .refused (.noReadPath .appkey) ∧
    perform (.rd .nwkkey) s = .refused (.noReadPath .nwkkey) ∧ perform (.rd .cmd) s = .refused (.noReadPath .cmd)) ∧
  ∀ (s : State) (ka kn : Option Key128),
    (∀ r, readRegister r { s with appkey := ka, nwkkey := kn } = readRegister r s) ∧
    ∀ b k, readBufferByte b k { s with appkey := ka, nwkkey := kn } = readBufferByte b k s

/-- A register write that exists stores the value and nothing else, and a read then answers it (R54, R56); the two keys are
stored byte for byte, index 0 first (R23, R24). -/
def Obligations.RegisterWriteStoresTheValue : Prop :=
  ∀ (s : State) (r : RegName) (v : HostValue), r ≠ .cmd → r.hostWritable = true → v.fits r = true →
    ∃ t, perform (.wr r v) s = .next t ∧
      t.isWritten r = true ∧
      (r.hostReadable = true → readRegister r t = .ok v) ∧
      (∀ q, q ≠ r → readRegister q t = readRegister q s) ∧
      t.pbuf = s.pbuf ∧ t.fbuf = s.fbuf ∧ t.status = s.status ∧
      (r ≠ .appkey → t.appkey = s.appkey) ∧ (r ≠ .nwkkey → t.nwkkey = s.nwkkey) ∧
      (∀ bs, r = .appkey → v = .str bs → t.appkey.map Vector.toList = some bs) ∧
      ∀ bs, r = .nwkkey → v = .str bs → t.nwkkey.map Vector.toList = some bs

/-- A buffer byte that exists can be written, is then read, and no other byte of either buffer changes (R50, R51); an offset of
255 or more does not exist. -/
def Obligations.BufferByteWriteIsLocal : Prop :=
  (∀ (s : State) (b : BufName) (k v : Nat), k ≤ 254 → v < 256 →
    ∃ t, perform (.wrb b k v) s = .next t ∧ t = s.setBuffer b (t.buffer b) ∧
      ∀ (b' : BufName) (k' : Nat), (t.buffer b').read k' =
        if b' = b ∧ k' = k then some (BitVec.ofNat 8 v) else (s.buffer b').read k') ∧
  ∀ (s : State) (b : BufName) (k v : Nat), 255 ≤ k →
    perform (.wrb b k v) s = .refused (.noSuchOffset b k) ∧ perform (.rdb b k) s = .refused (.noSuchOffset b k)

/-- A host read changes nothing of the engine and answers the same value when it is repeated (R56). -/
def Obligations.ReadsHaveNoSideEffects : Prop :=
  ∀ (a : HostAccess) (s t : State), ((∃ r, a = .rd r) ∨ ∃ b k, a = .rdb b k) → perform a s = .next t →
    ∃ v, t = { s with received := s.received ++ [v] } ∧ perform a t = .next { s with received := s.received ++ [v, v] }

/-- MemWrite and MemRead (R15): the bytes written are read back, and every byte outside them is as it was. -/
def Obligations.MemWriteThenMemRead : Prop :=
  ∀ (m : Memory) (off : Nat) (b : Bytes),
    (m.writeBytes off b).readBytes off b.length = some b ∧
    ∀ a, a < off ∨ off + b.length ≤ a → (m.writeBytes off b).read a = m.read a

/-- Under any injective REG_MAP (R59) the address of a register or of a buffer byte stands for it and for nothing else. -/
def Obligations.BusAddressNamesOnePlace : Prop :=
  ∀ (m : RegMap) (p : Port), p ∈ Port.all →
    portAt m (m.addr p) = some p ∧ ∀ a q, portAt m a = some q → m.addr q = a ∧ q ∈ Port.all

/-! ### The blocks (41_counter_block.md, 43_auth_block.md) -/

/-- R75: the counter block, byte by byte, as numbers. -/
def Obligations.CounterBlockByteByByte : Prop :=
  ∀ (d : Direction) (dev : DevAddr) (fcnt i : Half),
    (ctrblk d dev fcnt i).toList.map BitVec.toNat =
      [0x01, 0, 0, 0, 0, (match d with
        | .uplink => 0
        | .downlink => 1), dev[0].toNat, dev[1].toNat, dev[2].toNat, dev[3].toNat,
        fcnt.toNat % 256, fcnt.toNat / 256, 0, 0, i.toNat % 256, i.toNat / 256]

/-- R78: the authentication block, byte by byte, as numbers, for every length up to 255; and a longer one is refused, not
reduced (R142). -/
def Obligations.AuthBlockByteByByte : Prop :=
  ∀ (d : Direction) (dev : DevAddr) (fcnt : Half) (m : Nat),
    (m ≤ 255 → (authblkOfLength d dev fcnt m).map (fun b => b.toList.map BitVec.toNat) =
      some [0x49, 0, 0, 0, 0, (match d with
        | .uplink => 0
        | .downlink => 1), dev[0].toNat, dev[1].toNat, dev[2].toNat, dev[3].toNat,
        fcnt.toNat % 256, fcnt.toNat / 256, 0, 0, 0, m]) ∧
    (255 < m → authblkOfLength d dev fcnt m = none)

/-- R121, R122: two counter blocks are equal only when all their operands are; those of one frame differ in bytes 14 and 15
only. -/
def Obligations.CounterBlocksRepeatOnlyForEqualOperands : Prop :=
  (∀ (d₁ d₂ : Direction) (dev₁ dev₂ : DevAddr) (f₁ f₂ i₁ i₂ : Half),
    ctrblk d₁ dev₁ f₁ i₁ = ctrblk d₂ dev₂ f₂ i₂ ↔ d₁ = d₂ ∧ dev₁ = dev₂ ∧ f₁ = f₂ ∧ i₁ = i₂) ∧
  ∀ (d : Direction) (dev : DevAddr) (f i j : Half) (k : Fin 16), k.val < 14 →
    (ctrblk d dev f i)[k] = (ctrblk d dev f j)[k]

/-- R80: a counter block and an authentication block are never equal; they differ in byte 0. -/
def Obligations.CounterAndAuthBlocksNeverMeet : Prop :=
  BlockPurpose.code .keystream = 0x01 ∧ BlockPurpose.code .auth = 0x49 ∧
  ∀ (d₁ d₂ : Direction) (dev₁ dev₂ : DevAddr) (f₁ f₂ i : Half) (m : Byte),
    (ctrblk d₁ dev₁ f₁ i)[0] ≠ (authblk d₂ dev₂ f₂ m)[0] ∧ ctrblk d₁ dev₁ f₁ i ≠ authblk d₂ dev₂ f₂ m

/-! ### STREAM (42_stream_cipher.md) -/

/-- R130, R131: STREAM gives a byte string of the same length, and its byte `j` is the input's byte `j` xor byte `j mod 16` of
`E(K, A_(j div 16))`, for every cipher. The spec defines STREAM up to 2^20 bytes (R135, see StreamNeverWrapsTheIndex). That the
total function `stream` goes on beyond them, where the 16-bit index wraps, is the model's choice, log 14. -/
def Obligations.StreamByteByByte : Prop :=
  ∀ (E : Key128 → Block128 → Block128) (K : Key128) (d : Direction) (dev : DevAddr) (fcnt : Half) (buf : Bytes),
    (stream E K d dev fcnt buf).length = buf.length ∧
    ∀ j, j < buf.length → (stream E K d dev fcnt buf).getD j 0 =
      buf.getD j 0 ^^^ (E K (ctrblk d dev fcnt (BitVec.ofNat 16 (j / 16)))).toList.getD (j % 16) 0

/-- R132: running STREAM twice with the same inputs gives the buffer back, for every cipher. Above 2^20 bytes this is a property
of the model's total function `stream` only, log 14. -/
def Obligations.StreamTwiceGivesTheBufferBack : Prop :=
  ∀ (E : Key128 → Block128 → Block128) (K : Key128) (d : Direction) (dev : DevAddr) (fcnt : Half) (buf : Bytes),
    stream E K d dev fcnt (stream E K d dev fcnt buf) = buf

/-- R135: no command needs more than 16 blocks; up to 2^20 bytes no block index is used twice; and a longer input is refused
rather than the index wrapped. -/
def Obligations.StreamNeverWrapsTheIndex : Prop :=
  (∀ n, n ≤ 242 → ceilBlocks n ≤ 16) ∧
  (∀ n i j, n ≤ 16 * 65536 → i < ceilBlocks n → j < ceilBlocks n →
    BitVec.ofNat 16 i = BitVec.ofNat 16 j → i = j) ∧
  ∀ (E : Key128 → Block128 → Block128) (K : Key128) (d : Direction) (dev : DevAddr) (fcnt : Half) (buf : Bytes),
    (buf.length ≤ 16 * 65536 → streamUpTo E K d dev fcnt buf = some (stream E K d dev fcnt buf)) ∧
    (16 * 65536 < buf.length → streamUpTo E K d dev fcnt buf = none)

/-! ### The block cipher (40_block_cipher.md) -/

/-- R110 to R112: published vectors of AES-128. A check of three values. -/
def Obligations.AesPublishedVectors : Prop :=
  (aes128 #v[0x00, 0x01, 0x02, 0x03, 0x04, 0x05, 0x06, 0x07, 0x08, 0x09, 0x0A, 0x0B, 0x0C, 0x0D, 0x0E, 0x0F]
      #v[0x00, 0x11, 0x22, 0x33, 0x44, 0x55, 0x66, 0x77, 0x88, 0x99, 0xAA, 0xBB, 0xCC, 0xDD, 0xEE, 0xFF]).toList =
    [0x69, 0xC4, 0xE0, 0xD8, 0x6A, 0x7B, 0x04, 0x30, 0xD8, 0xCD, 0xB7, 0x80, 0x70, 0xB4, 0xC5, 0x5A] ∧
  (aes128 zeroBlock zeroBlock).toList =
    [0x66, 0xE9, 0x4B, 0xD4, 0xEF, 0x8A, 0x2C, 0x3B, 0x88, 0x4C, 0xFA, 0x59, 0xCA, 0x34, 0x2B, 0x2E] ∧
  (aes128 #v[0x2B, 0x7E, 0x15, 0x16, 0x28, 0xAE, 0xD2, 0xA6, 0xAB, 0xF7, 0x15, 0x88, 0x09, 0xCF, 0x4F, 0x3C]
      #v[0x32, 0x43, 0xF6, 0xA8, 0x88, 0x5A, 0x30, 0x8D, 0x31, 0x31, 0x98, 0xA2, 0xE0, 0x37, 0x07, 0x34]).toList =
    [0x39, 0x25, 0x84, 0x1D, 0x02, 0xDC, 0x09, 0xFB, 0xDC, 0x11, 0x85, 0x97, 0x19, 0x6A, 0x0B, 0x32]

/-- R106: the S-box table is the one of the formula over the inverse in the field of R103, every byte but 0 has an inverse,
and the table is a permutation. -/
def Obligations.SboxIsItsFormula : Prop :=
  (∀ a b : Byte, gfMul a b = 1 ∨ (a = 0 ∧ b = 0) →
    sbox a = b ^^^ b.rotateLeft 1 ^^^ b.rotateLeft 2 ^^^ b.rotateLeft 3 ^^^ b.rotateLeft 4 ^^^ 0x63) ∧
  (∀ a : Byte, a ≠ 0 → ∃ b, gfMul a b = 1) ∧
  (∀ a b : Byte, sbox a = sbox b → a = b) ∧ sbox 0x00 = 0x63 ∧ sbox 0x53 = 0xED ∧ sbox 0xFF = 0x16

/-- R107, R108: ShiftRows by its list of source indices, and MixColumns by its four lines, with the product of R103. -/
def Obligations.RoundStepsFollowTheirTables : Prop :=
  (∀ s : Block128, (shiftRows s).toList =
    [s[0], s[5], s[10], s[15], s[4], s[9], s[14], s[3], s[8], s[13], s[2], s[7], s[12], s[1], s[6], s[11]]) ∧
  ∀ (s : Block128) (c : Nat), c < 4 →
    let a (j : Nat) : Byte := s.toList.getD (4 * c + j) 0
    let b (j : Nat) : Byte := (mixColumns s).toList.getD (4 * c + j) 0
    b 0 = gfMul (a 0) 0x02 ^^^ gfMul (a 1) 0x03 ^^^ a 2 ^^^ a 3 ∧
    b 1 = a 0 ^^^ gfMul (a 1) 0x02 ^^^ gfMul (a 2) 0x03 ^^^ a 3 ∧
    b 2 = a 0 ^^^ a 1 ^^^ gfMul (a 2) 0x02 ^^^ gfMul (a 3) 0x03 ∧
    b 3 = gfMul (a 0) 0x03 ^^^ a 1 ^^^ a 2 ^^^ gfMul (a 3) 0x02

/-- R104: the key schedule by its recurrence over all 44 words, and the round keys cut from it. -/
def Obligations.KeyScheduleFollowsItsRecurrence : Prop :=
  (rcon 1 = 0x01 ∧ ∀ j, 1 ≤ j → j < 10 → rcon (j + 1) = xtime (rcon j)) ∧
  ∀ key : Key128, (keyWords key).length = 44 ∧
    (∀ j, j < 4 → ((keyWords key)[j]?).map Vector.toList = some ((key.toList.drop (4 * j)).take 4)) ∧
    (∀ j, 4 ≤ j → j < 44 → ∃ back4 back1, (keyWords key)[j - 4]? = some back4 ∧ (keyWords key)[j - 1]? = some back1 ∧
      (keyWords key)[j]? = some
        (if j % 4 = 0 then xorWord back4 (xorWord (subWord (rotWord back1)) #v[rcon (j / 4), 0, 0, 0])
          else xorWord back4 back1)) ∧
    ∀ r, r ≤ 10 → (roundKey (keyWords key) r).toList =
      ((((keyWords key).drop (4 * r)).take 4).map Vector.toList).flatten

/-- R109: for every key AES-128 is a bijection on 16-byte blocks. -/
def Obligations.AesIsABijectionForEveryKey : Prop :=
  ∀ key : Key128, Function.Bijective (aes128 key)

/-! ### The MAC engine (44_mac_engine.md) -/

/-- R153: `dbl` on the block read as a 128-bit number, byte 0 the most significant: shift left by one, drop the top bit, and if
it was 1 exclusive-or 0x87. -/
def Obligations.DblDoublesTheBigEndianNumber : Prop :=
  ∀ b : Block128, blockValue (dbl b) =
    if 2 ^ 127 ≤ blockValue b then (2 * blockValue b % 2 ^ 128) ^^^ 0x87 else 2 * blockValue b

/-- R151, R152, R154, R155: MAC16 of full blocks followed by a last block of 1 to 16 bytes (or of the empty string), in both
modes and for every cipher: the CBC-MAC chain from zero, then the last block as the mode prepares it. -/
def Obligations.MacIsTheChainOverItsBlocks : Prop :=
  ∀ (E : Key128 → Block128 → Block128) (K : Key128) (xs : List Block128) (last : Bytes),
    last.length ≤ 16 → (last = [] → xs = []) →
    let x := (xs.map Vector.toList).flatten ++ last
    let y := xs.foldl (fun y b => E K (xorBlock y b)) zeroBlock
    let k1 := dbl (E K zeroBlock)
    let k2 := dbl k1
    mac16 E .cmac K x = E K (xorBlock y
      (if last.length = 16 then xorBlock (blockOf last) k1
        else xorBlock (blockOf (last ++ [0x80] ++ List.replicate (15 - last.length) 0)) k2)) ∧
    mac16 E .plain K x = E K (xorBlock y (blockOf (last ++ List.replicate (16 - last.length) 0)))

/-- R156: in the codec the last MAC block is full exactly when `N mod 16 = 7`, else it has `(9 + N) mod 16` bytes; the empty
message never occurs. -/
def Obligations.LastMacBlockOfTheCodec : Prop :=
  ∀ (x : Bytes) (n : Nat), x.length = 25 + n → x ≠ [] ∧
    (x.length - 16 * blocksBeforeLast x = 16 ↔ n % 16 = 7) ∧
    (n % 16 ≠ 7 → x.length - 16 * blocksBeforeLast x = (9 + n) % 16 ∧ 1 ≤ (9 + n) % 16)

/-- R166: TAGCMP says whether the two tags are equal, and performs all TAG_LEN byte steps whatever the tags are. -/
def Obligations.TagcmpDecidesEqualityInFixedWork : Prop :=
  ∀ (t : TagLen) (a b : Bytes), a.length = tagLength t → b.length = tagLength t →
    (tagcmp t a b = true ↔ a = b) ∧
    (tagcmpT t a b).ops = UnitOp.tagcmp (tagLength t) :: List.replicate (tagLength t) UnitOp.tagByte

/-- R87: two engines that differ only in TAG_LEN make frames that are equal in their first `9 + N + 4` bytes; the 4-byte tag is
the leading part of the 8-byte tag. -/
def Obligations.ShortTagLeadsTheLongTag : Prop :=
  ∀ (cfg : Config) (d : Direction) (ka kn : Key128) (h : Header) (p : Bytes),
    sealFrame { cfg with tagLen := .four } d ka kn h p =
      (sealFrame { cfg with tagLen := .eight } d ka kn h p).take (9 + p.length + 4)

/-! ### Work and data-independence (70_reset_and_hazards.md) -/

/-- R255: (a) the trace of DECODE up to and including TAGCMP is the same for any two engines that agree in FLEN, TAG_LEN, MAC_MODE
and in whether the first byte is the Marker; (b), (c) after it only the verdict decides: keystream blocks on a match, nothing
on a mismatch; (d) the trace of ENCODE is the same for any two engines that agree in PLEN, TAG_LEN and MAC_MODE. The order of
the unit operations, CTRBLK and then `E` in each keystream block, is the model's choice, log 12. -/
def Obligations.TraceShowsOnlyLengthMarkerAndVerdict : Prop :=
  (∀ (d₁ d₂ : Direction) (s₁ s₂ : State) (o₁ o₂ : DecodeOperands),
    s₁.status.fault = none → s₂.status.fault = none → decodeOperands s₁ = some o₁ → decodeOperands s₂ = some o₂ →
    s₁.flen = s₂.flen → s₁.config.tagLen = s₂.config.tagLen → s₁.config.macMode = s₂.config.macMode →
    (s₁.fbuf.read 0 = some s₁.config.marker ↔ s₂.fbuf.read 0 = some s₂.config.marker) →
    beforeKeystream (decodeRunT d₁ s₁).ops = beforeKeystream (decodeRunT d₂ s₂).ops) ∧
  (∀ (d : Direction) (s : State) (o : DecodeOperands), s.status.fault = none → decodeOperands s = some o →
    (decodeRunT d s).ops = beforeKeystream (decodeRunT d s).ops ++
      (match (decodeRunT d s).val with
        | .opened x => keystreamOps (ceilBlocks x.payload.length)
        | _ => []) ∧
    ((∀ e, (decodeRunT d s).val = .error e → e = .authenticationFailed) →
      (decodeRunT d s).ops.count .tagByte = tagLength s.config.tagLen)) ∧
  ∀ (d₁ d₂ : Direction) (s₁ s₂ : State) (o₁ o₂ : EncodeOperands),
    s₁.status.fault = none → s₂.status.fault = none → encodeOperands s₁ = some o₁ → encodeOperands s₂ = some o₂ →
    s₁.plen = s₂.plen → s₁.config.tagLen = s₂.config.tagLen → s₁.config.macMode = s₂.config.macMode →
    (encodeRunT d₁ s₁).ops = (encodeRunT d₂ s₂).ops

/-- R256: the number of calls of `E` of each command and outcome; 34 is the most. -/
def Obligations.CipherCallCounts : Prop :=
  (∀ (d : Direction) (s : State) (o : EncodeOperands), s.status.fault = none → encodeOperands s = some o →
    let sub := if s.config.macMode = .cmac then 1 else 0
    cipherCalls (encodeRunT d s).ops =
      (if o.plen > maxPayload s.config.tagLen then 0 else ceilBlocks o.plen + ceilBlocks (25 + o.plen) + sub) ∧
    cipherCalls (encodeRunT d s).ops ≤ 34) ∧
  ∀ (d : Direction) (s : State) (o : DecodeOperands), s.status.fault = none → decodeOperands s = some o →
    let sub := if s.config.macMode = .cmac then 1 else 0
    let n := o.wire.length - 9 - tagLength s.config.tagLen
    cipherCalls (decodeRunT d s).ops =
      (match (decodeRunT d s).val with
        | .error .authenticationFailed => ceilBlocks (25 + n) + sub
        | .opened _ => ceilBlocks (25 + n) + sub + ceilBlocks n
        | _ => 0) ∧
    cipherCalls (decodeRunT d s).ops ≤ 34
end

