-- ==== Sys2Proof/Laws/Bytes.lean ====
section
/-! SUPPORT. Byte strings and blocks, byte by byte (00_scope.md R13, R14). -/

namespace Sys2Proof.Laws

open Sys2Proof.Machine

theorem mkBlock_getElem (f : Fin 16 → Byte) (k : Nat) (h : k < 16) : (mkBlock f)[k] = f ⟨k, h⟩ := by
  interval_cases k <;> rfl

@[simp] theorem mkBlock_getElem_fin (f : Fin 16 → Byte) (k : Fin 16) : (mkBlock f)[k] = f k :=
  mkBlock_getElem f k.val k.isLt

@[simp] theorem zeroBlock_getElem (k : Nat) (h : k < 16) : zeroBlock[k] = 0 := mkBlock_getElem _ k h

@[simp] theorem xorBlock_getElem (a b : Block128) (k : Nat) (h : k < 16) :
    (xorBlock a b)[k] = a[k] ^^^ b[k] := mkBlock_getElem _ k h

@[simp] theorem blockOf_getElem (s : Bytes) (k : Nat) (h : k < 16) : (blockOf s)[k] = s.getD k 0 :=
  mkBlock_getElem _ k h

/-- A block read back from its own bytes is the block. -/
@[simp] theorem blockOf_toList (b : Block128) : blockOf b.toList = b := by
  ext k h
  simp [h]

/-- The bytes of the block of 16 bytes are those bytes (R23, R24: `APPKEY[0]` is the first byte written). -/
theorem toList_blockOf (s : Bytes) (h : s.length = 16) : (blockOf s).toList = s := by
  apply List.ext_getElem
  · simp [h]
  · intro k h1 h2
    simp [h2]

/-- The bytes of the address of 4 bytes are those bytes (R26). -/
theorem toList_devAddrOf (s : Bytes) (h : s.length = 4) : (devAddrOf s).toList = s := by
  match s, h with
  | [a, b, c, d], _ => rfl

@[simp] theorem devAddrOf_toList (dev : DevAddr) (rest : Bytes) : devAddrOf (dev.toList ++ rest) = dev := by
  ext k h
  interval_cases k <;> simp [devAddrOf, List.getElem?_append]

@[simp] theorem halfOf_lo8_hi8 (v : Half) : halfOf (lo8 v) (hi8 v) = v := by
  apply BitVec.eq_of_toNat_eq
  simp only [halfOf, lo8, hi8, BitVec.toNat_append, BitVec.extractLsb'_toNat, Nat.shiftRight_zero, Nat.reducePow]
  rw [Nat.shiftLeft_eq, Nat.shiftRight_eq_div_pow, ← Nat.shiftLeft_eq, ← Nat.shiftLeft_add_eq_or_of_lt (by omega), Nat.shiftLeft_eq]
  have := v.isLt
  omega

theorem lo8_toNat (v : Half) : (lo8 v).toNat = v.toNat % 256 := by
  simp [lo8]

theorem hi8_toNat (v : Half) : (hi8 v).toNat = v.toNat / 256 := by
  have := v.isLt
  simp only [hi8, BitVec.extractLsb'_toNat, Nat.shiftRight_eq_div_pow]
  omega

/-- A 16-bit value is known by its two bytes (R53, R76). -/
theorem half_ext (a b : Half) (hl : lo8 a = lo8 b) (hh : hi8 a = hi8 b) : a = b := by
  rw [← halfOf_lo8_hi8 a, hl, hh, halfOf_lo8_hi8]

@[simp] theorem xorBytes_length (a b : Bytes) : (xorBytes a b).length = min a.length b.length := by
  simp [xorBytes]

theorem xorBytes_getElem (a b : Bytes) (k : Nat) (h : k < (xorBytes a b).length) :
    (xorBytes a b)[k] = a[k]'(by simp at h; omega) ^^^ b[k]'(by simp at h; omega) := by
  simp [xorBytes]

end Sys2Proof.Laws
end

