-- ==== Sys2Proof/Laws/Traced.lean ====
section
/-! SUPPORT. The value and the unit operations of each way to put traced computations together. -/

namespace Sys2Proof.Laws

open Sys2Proof.Machine

@[simp] theorem pure_val {α : Type} (a : α) : (Traced.pure a).val = a := rfl
@[simp] theorem pure_ops {α : Type} (a : α) : (Traced.pure a).ops = [] := rfl
@[simp] theorem unit_val {α : Type} (op : UnitOp) (a : α) : (Traced.unit op a).val = a := rfl
@[simp] theorem unit_ops {α : Type} (op : UnitOp) (a : α) : (Traced.unit op a).ops = [op] := rfl
@[simp] theorem bind_val {α β : Type} (x : Traced α) (f : α → Traced β) : (x.bind f).val = (f x.val).val := rfl
@[simp] theorem bind_ops {α β : Type} (x : Traced α) (f : α → Traced β) :
    (x.bind f).ops = x.ops ++ (f x.val).ops := rfl
@[simp] theorem map_val {α β : Type} (f : α → β) (x : Traced α) : (x.map f).val = f x.val := rfl
@[simp] theorem map_ops {α β : Type} (f : α → β) (x : Traced α) : (x.map f).ops = x.ops := rfl

end Sys2Proof.Laws
end

