-- ==== Sys2Proof/Laws/Mac.lean ====
section
/-! SUPPORT. MAC16, TRUNC and TAGCMP: their results and their work (44_mac_engine.md R151, R157, R160, R165). -/

namespace Sys2Proof.Laws

open Sys2Proof.Machine

/-- The work of the MAC chain depends on the number of blocks and the length of the last only (R157). -/
def chainOps (n len : Nat) : List UnitOp :=
  (List.replicate n [UnitOp.macBlock 16, UnitOp.cipher]).flatten ++ [UnitOp.macBlock (len - 16 * n), UnitOp.cipher]

theorem macChainT_ops (E : Key128 → Block128 → Block128) (K : Key128) (last : Bytes → Block128) (n : Nat)
    (y : Block128) (x : Bytes) : (macChainT E K last n y x).ops = chainOps n x.length := by
  induction n generalizing y x with
  | zero => simp [macChainT, chainOps, cipherT]
  | succ n ih =>
    simp [macChainT, chainOps, cipherT, ih, List.replicate_succ]
    omega

/-- The subkey call: one `E` in CMAC mode, none in PLAIN mode (R157). -/
def subkeyOps : MacMode → List UnitOp
  | .cmac => [UnitOp.cipher]
  | .plain => []

/-- The work of MAC16: the subkey call in CMAC mode, then the chain (R157). -/
theorem mac16T_ops (E : Key128 → Block128 → Block128) (mode : MacMode) (K : Key128) (x : Bytes) :
    (mac16T E mode K x).ops =
      subkeyOps mode ++ chainOps (blocksBeforeLast x) x.length := by
  cases mode with
  | cmac => simp [mac16T, cmacT, cipherT, macChainT_ops, subkeyOps]
  | plain => simp [mac16T, cbcMac0T, macChainT_ops, subkeyOps]

theorem mac16T_val (E : Key128 → Block128 → Block128) (mode : MacMode) (K : Key128) (x : Bytes) :
    (mac16T E mode K x).val = mac16 E mode K x := rfl

theorem tagLength_le (t : TagLen) : tagLength t ≤ 8 := by cases t <;> decide

theorem tagLength_pos (t : TagLen) : 4 ≤ tagLength t := by cases t <;> decide

@[simp] theorem trunc_length (t : TagLen) (b : Block128) : (trunc t b).length = tagLength t := by
  cases t <;> simp [trunc, tagLength]

theorem tagStepsT_ops (n : Nat) (acc : Byte) (a b : Bytes) :
    (tagStepsT n acc a b).ops = List.replicate n UnitOp.tagByte := by
  induction n generalizing acc a b with
  | zero => rfl
  | succ n ih => simp [tagStepsT, ih, List.replicate_succ]

/-- The work of TAGCMP is the same for all tags (R165, R255). -/
theorem tagcmpT_ops (t : TagLen) (a b : Bytes) :
    (tagcmpT t a b).ops = UnitOp.tagcmp (tagLength t) :: List.replicate (tagLength t) UnitOp.tagByte := by
  simp [tagcmpT, tagStepsT_ops]

theorem or_eq_zero (x y : Byte) : x ||| y = 0 ↔ x = 0 ∧ y = 0 := by
  constructor
  · intro h
    constructor <;> ext i hi <;> have := congrArg (fun z : Byte => z.getLsbD i) h <;> simp at this ⊢ <;> tauto
  · rintro ⟨rfl, rfl⟩; simp

theorem tagStepsT_val (n : Nat) (acc : Byte) (a b : Bytes) (ha : a.length = n) (hb : b.length = n) :
    (tagStepsT n acc a b).val = 0 ↔ acc = 0 ∧ a = b := by
  induction n generalizing acc a b with
  | zero => simp [tagStepsT, List.length_eq_zero_iff.1 ha, List.length_eq_zero_iff.1 hb]
  | succ n ih =>
    match a, b, ha, hb with
    | x :: a, y :: b, ha, hb =>
      simp only [List.length_cons, Nat.add_right_cancel_iff] at ha hb
      simp only [tagStepsT, bind_val, unit_val, List.tail_cons, List.headD_cons]
      rw [ih _ _ _ ha hb, or_eq_zero]
      simp [and_assoc]

theorem tagcmp_iff (t : TagLen) (a b : Bytes) (ha : a.length = tagLength t) (hb : b.length = tagLength t) :
    (tagcmpT t a b).val = true ↔ a = b := by
  simp only [tagcmpT, bind_val, map_val, beq_iff_eq]
  rw [tagStepsT_val _ _ _ _ ha hb]
  simp

end Sys2Proof.Laws
end

