-- ==== Sys2Proof/Laws/Stream.lean ====
section
/-! SUPPORT. STREAM: its length, its bytes, and its work (42_stream_cipher.md R130, R131, R136). -/

namespace Sys2Proof.Laws

open Sys2Proof.Machine

variable (E : Key128 → Block128 → Block128) (K : Key128) (d : Direction) (dev : DevAddr) (fcnt : Half)

theorem streamFromT_length (n i : Nat) (buf : Bytes) :
    (streamFromT E K d dev fcnt n i buf).val.length = min (16 * n) buf.length := by
  induction n generalizing i buf with
  | zero => simp [streamFromT]
  | succ n ih => simp [streamFromT, ih]; omega

theorem streamFromT_getElem (n i : Nat) (buf : Bytes) (j : Nat)
    (h : j < (streamFromT E K d dev fcnt n i buf).val.length) :
    (streamFromT E K d dev fcnt n i buf).val[j] =
      (buf[j]'(by rw [streamFromT_length] at h; omega)) ^^^
        (keystreamBlock E K d dev fcnt (i + j / 16))[j % 16]'(Nat.mod_lt _ (by decide)) := by
  induction n generalizing i buf j with
  | zero => simp [streamFromT] at h
  | succ n ih =>
    have hj := h
    rw [streamFromT_length] at hj
    simp only [streamFromT, bind_val, map_val]
    rw [List.getElem_append]
    split
    · rename_i hlt
      simp only [xorBytes_length, List.length_take, Vector.length_toList] at hlt
      rw [xorBytes_getElem]
      simp [ctrblkT, cipherT, keystreamBlock, show j / 16 = 0 by omega, show j % 16 = j by omega]
    · rename_i hge
      simp only [xorBytes_length, List.length_take, Vector.length_toList] at hge
      rw [ih]
      simp only [xorBytes_length, List.length_take, Vector.length_toList, List.getElem_drop]
      have e1 : 16 + (j - min (min 16 buf.length) 16) = j := by omega
      have e2 : i + 1 + (j - min (min 16 buf.length) 16) / 16 = i + j / 16 := by omega
      have e3 : (j - min (min 16 buf.length) 16) % 16 = j % 16 := by omega
      simp only [e1, e2, e3]

theorem streamFromT_ops (n i : Nat) (buf : Bytes) :
    (streamFromT E K d dev fcnt n i buf).ops = (List.replicate n [UnitOp.ctrblk, UnitOp.cipher]).flatten := by
  induction n generalizing i buf with
  | zero => simp [streamFromT]
  | succ n ih => simp [streamFromT, ctrblkT, cipherT, ih, List.replicate_succ]

/-- "a byte string of the same length as buf" (R130). -/
@[simp] theorem stream_length (buf : Bytes) : (stream E K d dev fcnt buf).length = buf.length := by
  rw [stream, streamT, streamFromT_length, ceilBlocks]
  omega

/-- "byte by byte: out[j] = buf[j] xor S_(j div 16)[j mod 16]" (R130). -/
theorem stream_getElem (buf : Bytes) (j : Nat) (h : j < (stream E K d dev fcnt buf).length) :
    (stream E K d dev fcnt buf)[j] =
      (buf[j]'(by simpa using h)) ^^^
        (keystreamBlock E K d dev fcnt (j / 16))[j % 16]'(Nat.mod_lt _ (by decide)) := by
  simp only [stream, streamT, streamFromT_getElem, Nat.zero_add]

/-- The work of STREAM depends on the length of its input only (R136). -/
theorem streamT_ops (buf : Bytes) :
    (streamT E K d dev fcnt buf).ops =
      (List.replicate (ceilBlocks buf.length) [UnitOp.ctrblk, UnitOp.cipher]).flatten :=
  streamFromT_ops E K d dev fcnt _ _ _

theorem streamT_val (buf : Bytes) : (streamT E K d dev fcnt buf).val = stream E K d dev fcnt buf := rfl

end Sys2Proof.Laws
end

