-- ==== Sys2Proof/Laws/Codec.lean ====
section
/-! SUPPORT. The frame codec: lengths, the frame cut at its fields, and the endings of a DECODE (45_frame_codec.md R182,
R184, R190). -/

namespace Sys2Proof.Laws

open Sys2Proof.Machine

@[simp] theorem headerBytes_length (marker : Byte) (h : Header) : (headerBytes marker h).length = 9 := rfl

@[simp] theorem tag_length (cfg : Config) (K : Key128) (d : Direction) (dev : DevAddr) (fcnt : Half) (n : Nat)
    (m : Bytes) : (tag cfg K d dev fcnt n m).length = tagLength cfg.tagLen := by
  simp [tag, tagT, truncT]

theorem tagT_val (cfg : Config) (K : Key128) (d : Direction) (dev : DevAddr) (fcnt : Half) (n : Nat) (m : Bytes) :
    (tagT cfg K d dev fcnt n m).val = tag cfg K d dev fcnt n m := rfl

/-- The tag is the leading bytes of the MAC over `B0 ‖ M` (R168). -/
theorem tag_eq (cfg : Config) (K : Key128) (d : Direction) (dev : DevAddr) (fcnt : Half) (n : Nat) (m : Bytes) :
    tag cfg K d dev fcnt n m =
      trunc cfg.tagLen (mac16 (blockCipher cfg.cipher) cfg.macMode K
        ((authblk d dev fcnt (BitVec.ofNat 8 n)).toList ++ m)) := rfl

/-- The work of tag generation depends on the two lengths and the mode only (R157, R255). -/
def tagOps (cfg : Config) (n len : Nat) : List UnitOp :=
  [UnitOp.authblk n] ++
    (subkeyOps cfg.macMode ++ chainOps ((16 + len - 1) / 16) (16 + len)) ++
    [UnitOp.trunc (tagLength cfg.tagLen)]

theorem tagT_ops (cfg : Config) (K : Key128) (d : Direction) (dev : DevAddr) (fcnt : Half) (n : Nat) (m : Bytes) :
    (tagT cfg K d dev fcnt n m).ops = tagOps cfg n m.length := by
  simp [tagT, authblkT, truncT, mac16T_ops, tagOps, blocksBeforeLast]

/-- The frame of R185: header, ciphertext, tag. -/
theorem sealFrame_eq (cfg : Config) (d : Direction) (ka kn : Key128) (h : Header) (p : Bytes) :
    sealFrame cfg d ka kn h p =
      headerBytes cfg.marker h ++ stream (blockCipher cfg.cipher) ka d h.dev h.fcnt p ++
        tag cfg kn d h.dev h.fcnt (headerLen + p.length)
          (headerBytes cfg.marker h ++ stream (blockCipher cfg.cipher) ka d h.dev h.fcnt p) := rfl

/-- `L = 9 + N + TAG_LEN` (R184). -/
@[simp] theorem sealFrame_length (cfg : Config) (d : Direction) (ka kn : Key128) (h : Header) (p : Bytes) :
    (sealFrame cfg d ka kn h p).length = 9 + p.length + tagLength cfg.tagLen := by
  simp [sealFrame_eq]
  omega

theorem sealFrameT_val (cfg : Config) (d : Direction) (ka kn : Key128) (h : Header) (p : Bytes) :
    (sealFrameT cfg d ka kn h p).val = sealFrame cfg d ka kn h p := rfl

theorem sealFrameT_ops (cfg : Config) (d : Direction) (ka kn : Key128) (h : Header) (p : Bytes) :
    (sealFrameT cfg d ka kn h p).ops =
      (List.replicate (ceilBlocks p.length) [UnitOp.ctrblk, UnitOp.cipher]).flatten ++
        tagOps cfg (headerLen + p.length) (9 + p.length) := by
  simp [sealFrameT, streamT_ops, streamT_val, tagT_ops]

/-- The tag DECODE expects of a frame: computed from the frame's own address, counter and message, and the direction
given with the command (R168, R193, R194). -/
def expectedTag (cfg : Config) (d : Direction) (kn : Key128) (f : Bytes) : Bytes :=
  tag cfg kn d (devAddrOf (f.drop 1)) (halfOf (f.getD 6 0) (f.getD 7 0)) (f.length - tagLength cfg.tagLen)
    (f.take (f.length - tagLength cfg.tagLen))

/-- What a DECODE reports of a frame whose tag matches (R197). -/
def reported (cfg : Config) (d : Direction) (ka : Key128) (f : Bytes) : Opened where
  fctrl := f.getD 5 0
  fport := f.getD 8 0
  fcnt := halfOf (f.getD 6 0) (f.getD 7 0)
  payload := stream (blockCipher cfg.cipher) ka d (devAddrOf (f.drop 1)) (halfOf (f.getD 6 0) (f.getD 7 0))
    ((f.drop 9).take (f.length - 9 - tagLength cfg.tagLen))

/-- The endings of DECODE, in order of precedence (R190, R196). -/
theorem openFrame_eq (cfg : Config) (d : Direction) (ka kn : Key128) (f : Bytes) :
    openFrame cfg d ka kn f =
      if f.length < minFrame cfg.tagLen then .error .frameTooShort
      else if f.getD 0 0 ≠ cfg.marker then .error .badMarker
      else if expectedTag cfg d kn f = f.drop (f.length - tagLength cfg.tagLen) then .ok (reported cfg d ka f)
      else .error .authenticationFailed := by
  unfold openFrame openFrameT
  by_cases h1 : f.length < minFrame cfg.tagLen
  · simp [h1]
  by_cases h2 : f.getD 0 0 ≠ cfg.marker
  · rw [if_neg h1, if_pos h2, if_neg h1, if_pos h2]; rfl
  rw [if_neg h1, if_neg h2, if_neg h1, if_neg h2]
  simp only [minFrame, headerLen] at h1
  simp only [headerLen]
  have e : 9 + (f.length - 9 - tagLength cfg.tagLen) = f.length - tagLength cfg.tagLen := by omega
  simp only [bind_val, e, tagT_val]
  have hc := tagcmp_iff cfg.tagLen (expectedTag cfg d kn f) (f.drop (f.length - tagLength cfg.tagLen))
    (by simp [expectedTag]) (by simp; omega)
  have ht : tag cfg kn d (devAddrOf (f.drop 1)) (halfOf (f.getD 6 0) (f.getD 7 0)) (f.length - tagLength cfg.tagLen)
      (f.take (f.length - tagLength cfg.tagLen)) = expectedTag cfg d kn f := rfl
  rw [ht]
  split <;> rename_i h3
  · rw [if_pos (hc.1 h3)]; rfl
  · rw [if_neg (fun h => h3 (hc.2 h))]; rfl

/-- The work of DECODE up to and including TAGCMP, for a frame of `len` bytes that is long enough and has the marker
(R255). -/
def verifyOps (cfg : Config) (len : Nat) : List UnitOp :=
  tagOps cfg (len - tagLength cfg.tagLen) (len - tagLength cfg.tagLen) ++
    UnitOp.tagcmp (tagLength cfg.tagLen) :: List.replicate (tagLength cfg.tagLen) UnitOp.tagByte

/-- The work of DECODE, for each of its endings (R255, R256). -/
theorem openFrameT_ops (cfg : Config) (d : Direction) (ka kn : Key128) (f : Bytes) :
    (openFrameT cfg d ka kn f).ops =
      if f.length < minFrame cfg.tagLen then []
      else if f.getD 0 0 ≠ cfg.marker then []
      else verifyOps cfg f.length ++
        if expectedTag cfg d kn f = f.drop (f.length - tagLength cfg.tagLen) then
          (List.replicate (ceilBlocks (f.length - 9 - tagLength cfg.tagLen)) [UnitOp.ctrblk, UnitOp.cipher]).flatten
        else [] := by
  unfold openFrameT
  by_cases h1 : f.length < minFrame cfg.tagLen
  · simp [h1]
  by_cases h2 : f.getD 0 0 ≠ cfg.marker
  · rw [if_neg h1, if_pos h2, if_neg h1, if_pos h2]; rfl
  rw [if_neg h1, if_neg h2, if_neg h1, if_neg h2]
  simp only [minFrame, headerLen] at h1
  simp only [headerLen]
  have e : 9 + (f.length - 9 - tagLength cfg.tagLen) = f.length - tagLength cfg.tagLen := by omega
  simp only [bind_ops, e, tagT_val, tagT_ops, tagcmpT_ops, List.length_take]
  have hc := tagcmp_iff cfg.tagLen (expectedTag cfg d kn f) (f.drop (f.length - tagLength cfg.tagLen))
    (by simp [expectedTag]) (by simp; omega)
  have ht : tag cfg kn d (devAddrOf (f.drop 1)) (halfOf (f.getD 6 0) (f.getD 7 0)) (f.length - tagLength cfg.tagLen)
      (f.take (f.length - tagLength cfg.tagLen)) = expectedTag cfg d kn f := rfl
  rw [ht]
  simp only [verifyOps]
  have em : min (f.length - tagLength cfg.tagLen) f.length = f.length - tagLength cfg.tagLen := by omega
  rw [em]
  split <;> rename_i h3
  · rw [if_pos (hc.1 h3)]
    simp only [map_ops, streamT_ops, List.length_take, List.length_drop, List.append_assoc]
    rw [show min (f.length - 9 - tagLength cfg.tagLen) (f.length - 9) = f.length - 9 - tagLength cfg.tagLen by omega]
  · rw [if_neg (fun h => h3 (hc.2 h))]
    simp

end Sys2Proof.Laws
end

