-- ==== Sys2Proof/Laws/Memory.lean ====
section
/-! SUPPORT. The buffers: what a write changes and what it leaves, byte strings read after they are written, and the
canonical form (20_memory.md R50, R51; 00_scope.md R15). -/

namespace Sys2Proof.Laws

open Sys2Proof.Machine

/-- The byte that was written is read; every other byte is as before (R22, R56). -/
theorem read_write (m : Memory) (a x : Nat) (b : Byte) :
    (m.write a b).read x = if x = a then some b else m.read x := by
  induction m with
  | nil => simp [Memory.write, Memory.read, Memory.unlisted, eq_comm]
  | cons c rest ih =>
    obtain ⟨y, v⟩ := c
    simp only [Memory.write]
    split
    · simp only [Memory.read]; grind
    · split
      · simp only [Memory.read]; grind
      · simp only [Memory.read, ih]; grind

/-- Writing a byte string changes the bytes at its offsets and no other (R15, R40). -/
theorem read_writeBytes (m : Memory) (off x : Nat) (s : Bytes) :
    (m.writeBytes off s).read x =
      if h : off ≤ x ∧ x - off < s.length then some (s[x - off]'h.2) else m.read x := by
  induction s generalizing m off with
  | nil => simp [Memory.writeBytes]
  | cons b rest ih =>
    rw [Memory.writeBytes, ih, read_write]
    by_cases h0 : x = off
    · subst h0; simp
    · by_cases h1 : off + 1 ≤ x
      · obtain ⟨k, rfl⟩ : ∃ k, x = off + 1 + k := ⟨x - (off + 1), by omega⟩
        have e : off + 1 + k - off = k + 1 := by omega
        simp [e, show off ≤ off + 1 + k by omega, h0]
      · simp [h0, h1, show ¬ off ≤ x by omega]

/-- A byte string is read exactly when each of its bytes is written. -/
theorem readBytes_eq_some (m : Memory) (off n : Nat) (s : Bytes) :
    m.readBytes off n = some s ↔ s.length = n ∧ ∀ k (h : k < s.length), m.read (off + k) = some s[k] := by
  induction n generalizing off s with
  | zero =>
    constructor
    · intro h
      obtain rfl : [] = s := by simpa [Memory.readBytes] using h
      simp
    · rintro ⟨hl, -⟩
      simp [Memory.readBytes, List.length_eq_zero_iff.1 hl]
  | succ n ih =>
    rw [Memory.readBytes]
    constructor
    · intro h
      split at h
      · rename_i b rest hb hr
        obtain rfl := Option.some.inj h
        obtain ⟨hl, hk⟩ := (ih _ _).1 hr
        refine ⟨by simp [hl], fun k hk' => ?_⟩
        cases k with
        | zero => simpa using hb
        | succ k => simpa [Nat.add_assoc, Nat.add_comm 1 k] using hk k (by simpa using hk')
      · exact absurd h (by simp)
    · rintro ⟨hl, hk⟩
      match s, hl with
      | b :: rest, hl =>
        have h0 := hk 0 (by simp)
        have hr : m.readBytes (off + 1) n = some rest := by
          refine (ih _ _).2 ⟨by simpa using hl, fun k hk' => ?_⟩
          have := hk (k + 1) (by simpa using hk')
          simpa [Nat.add_assoc, Nat.add_comm 1 k] using this
        simp at h0
        rw [h0, hr]

/-- A byte string is not read exactly when one of its bytes is `⊥` (R219). -/
theorem readBytes_eq_none (m : Memory) (off n : Nat) :
    m.readBytes off n = none ↔ ∃ k < n, m.read (off + k) = none := by
  induction n generalizing off with
  | zero => simp [Memory.readBytes]
  | succ n ih =>
    rw [Memory.readBytes]
    constructor
    · intro h
      split at h
      · exact absurd h (by simp)
      · rename_i hn
        by_cases h0 : m.read off = none
        · exact ⟨0, by omega, h0⟩
        · obtain ⟨b, hb⟩ := Option.ne_none_iff_exists'.1 h0
          have : m.readBytes (off + 1) n = none := by
            by_contra hr
            obtain ⟨r, hr⟩ := Option.ne_none_iff_exists'.1 hr
            exact hn _ _ hb hr
          obtain ⟨k, hk, hk'⟩ := (ih _).1 this
          exact ⟨k + 1, by omega, by rwa [show off + (k + 1) = off + 1 + k by omega]⟩
    · rintro ⟨k, hk, hk'⟩
      split
      · rename_i b rest hb hr
        cases k with
        | zero => simp [hb] at hk'
        | succ k =>
          have := (ih (off + 1)).2 ⟨k, by omega, by rwa [show off + 1 + k = off + (k + 1) by omega]⟩
          simp [this] at hr
      · rfl

theorem readBytes_length {m : Memory} {off n : Nat} {s : Bytes} (h : m.readBytes off n = some s) : s.length = n :=
  ((readBytes_eq_some m off n s).1 h).1

/-- What was written is read back (R15). -/
theorem readBytes_writeBytes (m : Memory) (off : Nat) (s : Bytes) :
    (m.writeBytes off s).readBytes off s.length = some s := by
  refine (readBytes_eq_some _ _ _ _).2 ⟨rfl, fun k hk => ?_⟩
  rw [read_writeBytes, dif_pos ⟨by omega, by omega⟩]
  simp

/-- Two buffers that agree on a range read alike there. -/
theorem readBytes_congr {m m' : Memory} {off n : Nat} (h : ∀ k < n, m.read (off + k) = m'.read (off + k)) :
    m.readBytes off n = m'.readBytes off n := by
  induction n generalizing off with
  | zero => simp [Memory.readBytes]
  | succ n ih =>
    rw [Memory.readBytes, Memory.readBytes, ih fun k hk => by
      have := h (k + 1) (by omega); rwa [show off + (k + 1) = off + 1 + k by omega] at this]
    have := h 0 (by omega)
    simp only [Nat.add_zero] at this
    rw [this]

theorem risingFrom_write (m : Memory) (low a : Nat) (b : Byte) (hl : low ≤ a) (ha : a < bufCap)
    (h : Memory.risingFrom low m = true) : Memory.risingFrom low (m.write a b) = true := by
  induction m generalizing low with
  | nil => simp [Memory.write, Memory.risingFrom, hl, ha]
  | cons c rest ih =>
    obtain ⟨x, v⟩ := c
    simp only [Memory.risingFrom, Bool.and_eq_true, decide_eq_true_eq] at h
    obtain ⟨⟨h1, h2⟩, h3⟩ := h
    simp only [Memory.write]
    split
    · rename_i hx
      simp [Memory.risingFrom, hl, ha, h2, h3, hx]
    · split
      · rename_i hx
        subst hx
        simp [Memory.risingFrom, hl, ha, h3]
      · simp only [Memory.risingFrom, Bool.and_eq_true, decide_eq_true_eq]
        exact ⟨⟨h1, h2⟩, ih (x + 1) (by omega) h3⟩

/-- A write inside the buffer keeps the canonical form (R50). -/
theorem wf_write {m : Memory} {a : Nat} (b : Byte) (ha : a < bufCap) (h : m.wf = true) : (m.write a b).wf = true :=
  risingFrom_write m 0 a b (by omega) ha h

/-- Writing a byte string that lies inside the buffer keeps the canonical form (R50, R206). -/
theorem wf_writeBytes {m : Memory} {off : Nat} (s : Bytes) (hs : off + s.length ≤ bufCap) (h : m.wf = true) :
    (m.writeBytes off s).wf = true := by
  induction s generalizing m off with
  | nil => exact h
  | cons b rest ih =>
    rw [Memory.writeBytes]
    simp only [List.length_cons] at hs
    exact ih (by omega) (wf_write b (by omega) h)

/-- The buffers after reset, in which nothing is written, are in canonical form (R39). -/
theorem wf_nil : Memory.wf [] = true := rfl

theorem read_lt_low (m : Memory) (low a : Nat) (h : Memory.risingFrom low m = true) (ha : a < low) :
    m.read a = none := by
  induction m generalizing low with
  | nil => rfl
  | cons c rest ih =>
    obtain ⟨x, v⟩ := c
    simp only [Memory.risingFrom, Bool.and_eq_true, decide_eq_true_eq] at h
    simp only [Memory.read]
    rw [if_neg (by omega)]
    exact ih (x + 1) h.2 (by omega)

theorem risingFrom_ext (m m' : Memory) (low : Nat) (h : Memory.risingFrom low m = true)
    (h' : Memory.risingFrom low m' = true) (he : ∀ a, m.read a = m'.read a) : m = m' := by
  induction m generalizing low m' with
  | nil =>
    cases m' with
    | nil => rfl
    | cons c rest => obtain ⟨x, v⟩ := c; simpa [Memory.read, Memory.unlisted] using he x
  | cons c rest ih =>
    obtain ⟨x, v⟩ := c
    cases m' with
    | nil => simpa [Memory.read, Memory.unlisted] using he x
    | cons c' rest' =>
      obtain ⟨x', v'⟩ := c'
      simp only [Memory.risingFrom, Bool.and_eq_true, decide_eq_true_eq] at h h'
      have hx : x = x' := by
        by_contra hne
        rcases Nat.lt_or_gt_of_ne hne with hlt | hgt
        · have := he x
          simp only [Memory.read, if_true] at this
          rw [if_neg (by omega), read_lt_low rest' (x' + 1) x h'.2 (by omega)] at this
          exact absurd this (by simp)
        · have := he x'
          simp only [Memory.read, if_true] at this
          rw [if_neg (by omega), read_lt_low rest (x + 1) x' h.2 (by omega)] at this
          exact absurd this (by simp)
      subst hx
      have hv := he x
      simp only [Memory.read, if_true, Option.some.injEq] at hv
      subst hv
      congr 1
      refine ih rest' (x + 1) h.2 h'.2 fun a => ?_
      have := he a
      simp only [Memory.read] at this
      by_cases hxa : x = a
      · subst hxa
        rw [read_lt_low rest (x + 1) x h.2 (by omega), read_lt_low rest' (x + 1) x h'.2 (by omega)]
      · simpa [hxa] using this

/-- Two buffers in canonical form with the same bytes are equal data. -/
theorem wf_ext (m m' : Memory) (h : m.wf = true) (h' : m'.wf = true) (he : ∀ a, m.read a = m'.read a) : m = m' :=
  risingFrom_ext m m' 0 h h' he

end Sys2Proof.Laws
end

