-- ==== Sys2Proof/Laws/Command.lean ====
section
/-! SUPPORT. The commands: their required sets, the endings of a run, and what `exec` answers (45_frame_codec.md R180;
60_exceptions.md R214, R219). -/

namespace Sys2Proof.Laws

open Sys2Proof.Machine

/-- The run a command makes of a state: exactly what each arm of `exec` commits. -/
def runOf (i : Instr) (s : State) : Traced CommandResult :=
  match i with
  | .encodeUp => encodeRunT .uplink s
  | .encodeDn => encodeRunT .downlink s
  | .decodeUp => decodeRunT .uplink s
  | .decodeDn => decodeRunT .downlink s

/-- Every command answers a next state: what its run's ending writes (R33, R40). -/
theorem exec_eq (i : Instr) (s : State) : exec i s = .next (commit (runOf i s).val s) := by
  cases i <;> rfl

/-- ENCODE's operands, when its whole required set is written (R219). -/
theorem encodeOperands_eq_some (s : State) (o : EncodeOperands) :
    encodeOperands s = some o ↔
      s.appkey = some o.appkey ∧ s.nwkkey = some o.nwkkey ∧ s.devaddr = some o.header.dev ∧
      s.fcnt = some o.header.fcnt ∧ s.fctrl = some o.header.fctrl ∧ s.fport = some o.header.fport ∧
      (∃ n, s.plen = some n ∧ o.plen = n.toNat) ∧ payloadOperand s o.plen = some o.payload := by
  obtain ⟨ka, kn, ⟨dev, fctrl, fcnt, fport⟩, n, p⟩ := o
  simp only [encodeOperands, Option.bind_eq_bind, Option.bind_eq_some_iff, Option.some.injEq,
    EncodeOperands.mk.injEq, Header.mk.injEq]
  constructor
  · rintro ⟨a1, h1, a2, h2, a3, h3, a4, h4, a5, h5, a6, h6, a7, h7, a8, h8, rfl, rfl, ⟨rfl, rfl, rfl, rfl⟩, rfl, rfl⟩
    exact ⟨h1, h2, h3, h4, h5, h6, ⟨a7, h7, rfl⟩, h8⟩
  · rintro ⟨h1, h2, h3, h4, h5, h6, ⟨m, h7, rfl⟩, h8⟩
    exact ⟨_, h1, _, h2, _, h3, _, h4, _, h5, _, h6, _, h7, _, h8, rfl, rfl, ⟨rfl, rfl, rfl, rfl⟩, rfl, rfl⟩

/-- DECODE's operands, when its whole required set is written (R219). -/
theorem decodeOperands_eq_some (s : State) (o : DecodeOperands) :
    decodeOperands s = some o ↔
      s.appkey = some o.appkey ∧ s.nwkkey = some o.nwkkey ∧
      ∃ l, s.flen = some l ∧ s.fbuf.readBytes 0 l.toNat = some o.wire := by
  obtain ⟨ka, kn, f⟩ := o
  simp only [decodeOperands, Option.bind_eq_bind, Option.bind_eq_some_iff, Option.some.injEq, DecodeOperands.mk.injEq]
  constructor
  · rintro ⟨a1, h1, a2, h2, l, h3, w, h4, rfl, rfl, rfl⟩
    exact ⟨h1, h2, l, h3, h4⟩
  · rintro ⟨h1, h2, l, h3, h4⟩
    exact ⟨_, h1, _, h2, l, h3, _, h4, rfl, rfl, rfl⟩

/-- The payload of an ENCODE that is not too large has PLEN bytes. -/
theorem payload_length {s : State} {o : EncodeOperands} (h : encodeOperands s = some o)
    (hn : o.plen ≤ maxPayload s.config.tagLen) : o.payload.length = o.plen := by
  have h8 := ((encodeOperands_eq_some s o).1 h).2.2.2.2.2.2.2
  rw [payloadOperand, if_pos hn] at h8
  exact readBytes_length h8

/-- The frame bytes of a DECODE are FLEN bytes, at most 255. -/
theorem wire_length {s : State} {o : DecodeOperands} (h : decodeOperands s = some o) :
    ∃ l, s.flen = some l ∧ o.wire.length = l.toNat := by
  obtain ⟨-, -, l, hl, hw⟩ := (decodeOperands_eq_some s o).1 h
  exact ⟨l, hl, readBytes_length hw⟩

theorem faulted_eq_false {st : Status} : st.faulted = false ↔ st.fault = none := by
  simp [Status.faulted]

theorem faulted_eq_true {st : Status} : st.faulted = true ↔ st.fault ≠ none := by
  simp [Status.faulted, Option.isSome_iff_ne_none]

/-- The endings of an ENCODE, in the order of R214. -/
theorem encodeRunT_val (d : Direction) (s : State) :
    (s.status.fault ≠ none ∧ (encodeRunT d s).val = .ignored) ∨
    (s.status.fault = none ∧ encodeOperands s = none ∧ (encodeRunT d s).val = .faulted .unwrittenOperand) ∨
    (s.status.fault = none ∧ ∃ o, encodeOperands s = some o ∧
      ((maxPayload s.config.tagLen < o.plen ∧ (encodeRunT d s).val = .error .payloadTooLarge) ∨
       (o.plen ≤ maxPayload s.config.tagLen ∧
        (encodeRunT d s).val = .framed (sealFrame s.config d o.appkey o.nwkkey o.header o.payload)))) := by
  unfold encodeRunT
  by_cases hf : s.status.fault = none
  · simp only [faulted_eq_false.2 hf, hf, if_neg (show ¬ (false = true) by decide)]
    cases ho : encodeOperands s with
    | none => simp
    | some o =>
      by_cases hn : o.plen > maxPayload s.config.tagLen
      · simp [hn]
      · simp [hn, sealFrameT_val]; omega
  · simp [faulted_eq_true.2 hf, hf]

/-- The endings of a DECODE, in the order of R214. -/
theorem decodeRunT_val (d : Direction) (s : State) :
    (s.status.fault ≠ none ∧ (decodeRunT d s).val = .ignored) ∨
    (s.status.fault = none ∧ decodeOperands s = none ∧ (decodeRunT d s).val = .faulted .unwrittenOperand) ∨
    (s.status.fault = none ∧ ∃ o, decodeOperands s = some o ∧
      ((∃ e, openFrame s.config d o.appkey o.nwkkey o.wire = .error e ∧ (decodeRunT d s).val = .error e) ∨
       (∃ x, openFrame s.config d o.appkey o.nwkkey o.wire = .ok x ∧ (decodeRunT d s).val = .opened x))) := by
  unfold decodeRunT openFrame
  by_cases hf : s.status.fault = none
  · simp only [faulted_eq_false.2 hf, hf, if_neg (show ¬ (false = true) by decide)]
    cases ho : decodeOperands s with
    | none => simp
    | some o =>
      cases hx : (openFrameT s.config d o.appkey o.nwkkey o.wire).val with
      | error e => simp [hx]
      | ok x => simp [hx]
  · simp [faulted_eq_true.2 hf, hf]

/-- The ending of an ENCODE whose required set is written (R185). -/
theorem encodeRunT_val_of_some {d : Direction} {s : State} {o : EncodeOperands} (hf : s.status.fault = none)
    (ho : encodeOperands s = some o) :
    (encodeRunT d s).val = if o.plen > maxPayload s.config.tagLen then .error .payloadTooLarge
      else .framed (sealFrame s.config d o.appkey o.nwkkey o.header o.payload) := by
  unfold encodeRunT
  rw [faulted_eq_false.2 hf, ho]
  simp only [Bool.false_eq_true, if_false]
  split <;> rfl

/-- The ending of a DECODE whose required set is written (R190). -/
theorem decodeRunT_val_of_some {d : Direction} {s : State} {o : DecodeOperands} (hf : s.status.fault = none)
    (ho : decodeOperands s = some o) :
    (decodeRunT d s).val = match openFrame s.config d o.appkey o.nwkkey o.wire with
      | .error e => .error e
      | .ok x => .opened x := by
  unfold decodeRunT
  rw [faulted_eq_false.2 hf, ho]
  rfl

/-- While FAULT is 1 the run of every command is to be ignored (R221). -/
theorem runOf_faulted {s : State} (i : Instr) (h : s.status.fault ≠ none) : (runOf i s).val = .ignored := by
  have enc : ∀ d, (encodeRunT d s).val = .ignored := fun d => by
    rcases encodeRunT_val d s with ⟨-, hr⟩ | ⟨hf, -⟩ | ⟨hf, -⟩
    · exact hr
    · exact absurd hf h
    · exact absurd hf h
  have dec : ∀ d, (decodeRunT d s).val = .ignored := fun d => by
    rcases decodeRunT_val d s with ⟨-, hr⟩ | ⟨hf, -⟩ | ⟨hf, -⟩
    · exact hr
    · exact absurd hf h
    · exact absurd hf h
  cases i
  · exact enc .uplink
  · exact enc .downlink
  · exact dec .uplink
  · exact dec .downlink

/-- A payload a DECODE reports is shorter than its frame. -/
theorem opened_payload_length {cfg : Config} {d : Direction} {ka kn : Key128} {f : Bytes} {x : Opened}
    (h : openFrame cfg d ka kn f = .ok x) :
    9 + tagLength cfg.tagLen ≤ f.length ∧ x.payload.length = f.length - 9 - tagLength cfg.tagLen := by
  rw [openFrame_eq] at h
  split at h
  · exact absurd h (by simp)
  · split at h
    · exact absurd h (by simp)
    · split at h
      · obtain rfl := Except.ok.inj h
        rename_i h1 _ _
        simp only [minFrame, headerLen] at h1
        simp [reported]; omega
      · exact absurd h (by simp)

/-- Everything a command can do to the state (R40): nothing, set FAULT, write CODE, or write its results. -/
theorem exec_cases {i : Instr} {s t : State} (h : exec i s = .next t) :
    (s.status.fault ≠ none ∧ t = s) ∨
    (s.status.fault = none ∧
      (t = takeFault .unwrittenOperand s ∨ (∃ e, t = raiseError e s) ∨
       (∃ f, f.length ≤ 255 ∧ t = writeFrame f s) ∨ (∃ x, x.payload.length ≤ 255 ∧ t = writeOpened x s))) := by
  have enc : ∀ d, exec i s = .next (commit (encodeRunT d s).val s) →
      (s.status.fault ≠ none ∧ t = s) ∨
      (s.status.fault = none ∧
        (t = takeFault .unwrittenOperand s ∨ (∃ e, t = raiseError e s) ∨
         (∃ f, f.length ≤ 255 ∧ t = writeFrame f s) ∨ (∃ x, x.payload.length ≤ 255 ∧ t = writeOpened x s))) := by
    intro d hd
    rw [h] at hd
    obtain rfl := Host.Outcome.next.inj hd
    rcases encodeRunT_val d s with ⟨hf, hr⟩ | ⟨hf, -, hr⟩ | ⟨hf, o, ho, ⟨-, hr⟩ | ⟨hn, hr⟩⟩
    · exact .inl ⟨hf, by rw [hr]; rfl⟩
    · exact .inr ⟨hf, .inl (by rw [hr]; rfl)⟩
    · exact .inr ⟨hf, .inr (.inl ⟨_, by rw [hr]; rfl⟩)⟩
    · refine .inr ⟨hf, .inr (.inr (.inl ⟨_, ?_, by rw [hr]; rfl⟩))⟩
      have := payload_length ho hn
      simp only [maxPayload, headerLen] at hn
      have := tagLength_le s.config.tagLen
      simp; omega
  have dec : ∀ d, exec i s = .next (commit (decodeRunT d s).val s) →
      (s.status.fault ≠ none ∧ t = s) ∨
      (s.status.fault = none ∧
        (t = takeFault .unwrittenOperand s ∨ (∃ e, t = raiseError e s) ∨
         (∃ f, f.length ≤ 255 ∧ t = writeFrame f s) ∨ (∃ x, x.payload.length ≤ 255 ∧ t = writeOpened x s))) := by
    intro d hd
    rw [h] at hd
    obtain rfl := Host.Outcome.next.inj hd
    rcases decodeRunT_val d s with ⟨hf, hr⟩ | ⟨hf, -, hr⟩ | ⟨hf, o, ho, ⟨e, -, hr⟩ | ⟨x, hx, hr⟩⟩
    · exact .inl ⟨hf, by rw [hr]; rfl⟩
    · exact .inr ⟨hf, .inl (by rw [hr]; rfl)⟩
    · exact .inr ⟨hf, .inr (.inl ⟨_, by rw [hr]; rfl⟩)⟩
    · refine .inr ⟨hf, .inr (.inr (.inr ⟨_, ?_, by rw [hr]; rfl⟩))⟩
      obtain ⟨l, -, hw⟩ := wire_length ho
      have := (opened_payload_length hx).2
      have := l.isLt
      omega
  cases i
  · exact enc .uplink rfl
  · exact enc .downlink rfl
  · exact dec .uplink rfl
  · exact dec .downlink rfl

end Sys2Proof.Laws
end

