-- ==== Sys2Proof/Laws/PerInstr.lean ====
section
/-! SUPPORT. What holds of every command as syntax, one lemma for each constructor (30_encoding.md R82, R83). -/

namespace Sys2Proof.Laws.CommandWord

/-- The word of a command has `RSV` 00000 and fits three bits, its fields are the command's, and the command map has a
row for it (R82, R83). -/
def Statement (i : Instr) : Prop :=
  i.wellFormed = true ∧ (encode i).toNat < 8 ∧ CommandFields.ofWord (encode i) = i.fields ∧
    (⟨0xFF, encode i, i⟩ : CommandRow) ∈ commandMap

theorem encodeUp : Statement .encodeUp := by unfold Statement; decide
theorem encodeDn : Statement .encodeDn := by unfold Statement; decide
theorem decodeUp : Statement .decodeUp := by unfold Statement; decide
theorem decodeDn : Statement .decodeDn := by unfold Statement; decide

end Sys2Proof.Laws.CommandWord
end

