-- ==== Sys2Proof/Laws/State.lean ====
section
/-! SUPPORT. One lemma for each field of State after each shared update: what the update writes, and that it leaves every
other field (10_state.md R40; 60_exceptions.md R212, R218; 70_reset_and_hazards.md R240). -/

namespace Sys2Proof.Laws

open Sys2Proof.Machine

/-! ### `raiseError` -/

@[simp] theorem raiseError_appkey (e : ErrorCode) (s : State) : (raiseError e s).appkey = s.appkey := rfl
@[simp] theorem raiseError_nwkkey (e : ErrorCode) (s : State) : (raiseError e s).nwkkey = s.nwkkey := rfl
@[simp] theorem raiseError_devaddr (e : ErrorCode) (s : State) : (raiseError e s).devaddr = s.devaddr := rfl
@[simp] theorem raiseError_fcnt (e : ErrorCode) (s : State) : (raiseError e s).fcnt = s.fcnt := rfl
@[simp] theorem raiseError_fctrl (e : ErrorCode) (s : State) : (raiseError e s).fctrl = s.fctrl := rfl
@[simp] theorem raiseError_fport (e : ErrorCode) (s : State) : (raiseError e s).fport = s.fport := rfl
@[simp] theorem raiseError_plen (e : ErrorCode) (s : State) : (raiseError e s).plen = s.plen := rfl
@[simp] theorem raiseError_pbuf (e : ErrorCode) (s : State) : (raiseError e s).pbuf = s.pbuf := rfl
@[simp] theorem raiseError_flen (e : ErrorCode) (s : State) : (raiseError e s).flen = s.flen := rfl
@[simp] theorem raiseError_fbuf (e : ErrorCode) (s : State) : (raiseError e s).fbuf = s.fbuf := rfl
@[simp] theorem raiseError_status (e : ErrorCode) (s : State) : (raiseError e s).status = s.status.withCode (.error e) := rfl
@[simp] theorem raiseError_config (e : ErrorCode) (s : State) : (raiseError e s).config = s.config := rfl
@[simp] theorem raiseError_pending (e : ErrorCode) (s : State) : (raiseError e s).pending = s.pending := rfl
@[simp] theorem raiseError_received (e : ErrorCode) (s : State) : (raiseError e s).received = s.received := rfl

/-! ### `takeFault` -/

@[simp] theorem takeFault_appkey (f : Fault) (s : State) : (takeFault f s).appkey = s.appkey := rfl
@[simp] theorem takeFault_nwkkey (f : Fault) (s : State) : (takeFault f s).nwkkey = s.nwkkey := rfl
@[simp] theorem takeFault_devaddr (f : Fault) (s : State) : (takeFault f s).devaddr = s.devaddr := rfl
@[simp] theorem takeFault_fcnt (f : Fault) (s : State) : (takeFault f s).fcnt = s.fcnt := rfl
@[simp] theorem takeFault_fctrl (f : Fault) (s : State) : (takeFault f s).fctrl = s.fctrl := rfl
@[simp] theorem takeFault_fport (f : Fault) (s : State) : (takeFault f s).fport = s.fport := rfl
@[simp] theorem takeFault_plen (f : Fault) (s : State) : (takeFault f s).plen = s.plen := rfl
@[simp] theorem takeFault_pbuf (f : Fault) (s : State) : (takeFault f s).pbuf = s.pbuf := rfl
@[simp] theorem takeFault_flen (f : Fault) (s : State) : (takeFault f s).flen = s.flen := rfl
@[simp] theorem takeFault_fbuf (f : Fault) (s : State) : (takeFault f s).fbuf = s.fbuf := rfl
@[simp] theorem takeFault_status (f : Fault) (s : State) : (takeFault f s).status = s.status.withFault f := rfl
@[simp] theorem takeFault_config (f : Fault) (s : State) : (takeFault f s).config = s.config := rfl
@[simp] theorem takeFault_pending (f : Fault) (s : State) : (takeFault f s).pending = s.pending := rfl
@[simp] theorem takeFault_received (f : Fault) (s : State) : (takeFault f s).received = s.received := rfl

/-! ### `writeFrame` -/

@[simp] theorem writeFrame_appkey (f : Bytes) (s : State) : (writeFrame f s).appkey = s.appkey := rfl
@[simp] theorem writeFrame_nwkkey (f : Bytes) (s : State) : (writeFrame f s).nwkkey = s.nwkkey := rfl
@[simp] theorem writeFrame_devaddr (f : Bytes) (s : State) : (writeFrame f s).devaddr = s.devaddr := rfl
@[simp] theorem writeFrame_fcnt (f : Bytes) (s : State) : (writeFrame f s).fcnt = s.fcnt := rfl
@[simp] theorem writeFrame_fctrl (f : Bytes) (s : State) : (writeFrame f s).fctrl = s.fctrl := rfl
@[simp] theorem writeFrame_fport (f : Bytes) (s : State) : (writeFrame f s).fport = s.fport := rfl
@[simp] theorem writeFrame_plen (f : Bytes) (s : State) : (writeFrame f s).plen = s.plen := rfl
@[simp] theorem writeFrame_pbuf (f : Bytes) (s : State) : (writeFrame f s).pbuf = s.pbuf := rfl
@[simp] theorem writeFrame_flen (f : Bytes) (s : State) : (writeFrame f s).flen = some (BitVec.ofNat 8 f.length) := rfl
@[simp] theorem writeFrame_fbuf (f : Bytes) (s : State) : (writeFrame f s).fbuf = s.fbuf.writeBytes 0 f := rfl
@[simp] theorem writeFrame_status (f : Bytes) (s : State) : (writeFrame f s).status = s.status.withCode .ok := rfl
@[simp] theorem writeFrame_config (f : Bytes) (s : State) : (writeFrame f s).config = s.config := rfl
@[simp] theorem writeFrame_pending (f : Bytes) (s : State) : (writeFrame f s).pending = s.pending := rfl
@[simp] theorem writeFrame_received (f : Bytes) (s : State) : (writeFrame f s).received = s.received := rfl

/-! ### `writeOpened` -/

@[simp] theorem writeOpened_appkey (o : Opened) (s : State) : (writeOpened o s).appkey = s.appkey := rfl
@[simp] theorem writeOpened_nwkkey (o : Opened) (s : State) : (writeOpened o s).nwkkey = s.nwkkey := rfl
@[simp] theorem writeOpened_devaddr (o : Opened) (s : State) : (writeOpened o s).devaddr = s.devaddr := rfl
@[simp] theorem writeOpened_fcnt (o : Opened) (s : State) : (writeOpened o s).fcnt = some o.fcnt := rfl
@[simp] theorem writeOpened_fctrl (o : Opened) (s : State) : (writeOpened o s).fctrl = some o.fctrl := rfl
@[simp] theorem writeOpened_fport (o : Opened) (s : State) : (writeOpened o s).fport = some o.fport := rfl
@[simp] theorem writeOpened_plen (o : Opened) (s : State) : (writeOpened o s).plen = some (BitVec.ofNat 8 o.payload.length) := rfl
@[simp] theorem writeOpened_pbuf (o : Opened) (s : State) : (writeOpened o s).pbuf = s.pbuf.writeBytes 0 o.payload := rfl
@[simp] theorem writeOpened_flen (o : Opened) (s : State) : (writeOpened o s).flen = s.flen := rfl
@[simp] theorem writeOpened_fbuf (o : Opened) (s : State) : (writeOpened o s).fbuf = s.fbuf := rfl
@[simp] theorem writeOpened_status (o : Opened) (s : State) : (writeOpened o s).status = s.status.withCode .ok := rfl
@[simp] theorem writeOpened_config (o : Opened) (s : State) : (writeOpened o s).config = s.config := rfl
@[simp] theorem writeOpened_pending (o : Opened) (s : State) : (writeOpened o s).pending = s.pending := rfl
@[simp] theorem writeOpened_received (o : Opened) (s : State) : (writeOpened o s).received = s.received := rfl

/-! ### `resetEvent` -/

@[simp] theorem resetEvent_appkey (s : State) : (resetEvent s).appkey = none := rfl
@[simp] theorem resetEvent_nwkkey (s : State) : (resetEvent s).nwkkey = none := rfl
@[simp] theorem resetEvent_devaddr (s : State) : (resetEvent s).devaddr = none := rfl
@[simp] theorem resetEvent_fcnt (s : State) : (resetEvent s).fcnt = none := rfl
@[simp] theorem resetEvent_fctrl (s : State) : (resetEvent s).fctrl = none := rfl
@[simp] theorem resetEvent_fport (s : State) : (resetEvent s).fport = none := rfl
@[simp] theorem resetEvent_plen (s : State) : (resetEvent s).plen = none := rfl
@[simp] theorem resetEvent_pbuf (s : State) : (resetEvent s).pbuf = [] := rfl
@[simp] theorem resetEvent_flen (s : State) : (resetEvent s).flen = none := rfl
@[simp] theorem resetEvent_fbuf (s : State) : (resetEvent s).fbuf = [] := rfl
@[simp] theorem resetEvent_status (s : State) : (resetEvent s).status = { fault := none, code := .idle } := rfl
@[simp] theorem resetEvent_config (s : State) : (resetEvent s).config = s.config := rfl
@[simp] theorem resetEvent_pending (s : State) : (resetEvent s).pending = s.pending := rfl
@[simp] theorem resetEvent_received (s : State) : (resetEvent s).received = s.received := rfl

/-! ### `placeCommand` -/

@[simp] theorem placeCommand_appkey (s : State) (v : Nat) : (placeCommand s v).appkey = s.appkey := rfl
@[simp] theorem placeCommand_nwkkey (s : State) (v : Nat) : (placeCommand s v).nwkkey = s.nwkkey := rfl
@[simp] theorem placeCommand_devaddr (s : State) (v : Nat) : (placeCommand s v).devaddr = s.devaddr := rfl
@[simp] theorem placeCommand_fcnt (s : State) (v : Nat) : (placeCommand s v).fcnt = s.fcnt := rfl
@[simp] theorem placeCommand_fctrl (s : State) (v : Nat) : (placeCommand s v).fctrl = s.fctrl := rfl
@[simp] theorem placeCommand_fport (s : State) (v : Nat) : (placeCommand s v).fport = s.fport := rfl
@[simp] theorem placeCommand_plen (s : State) (v : Nat) : (placeCommand s v).plen = s.plen := rfl
@[simp] theorem placeCommand_pbuf (s : State) (v : Nat) : (placeCommand s v).pbuf = s.pbuf := rfl
@[simp] theorem placeCommand_flen (s : State) (v : Nat) : (placeCommand s v).flen = s.flen := rfl
@[simp] theorem placeCommand_fbuf (s : State) (v : Nat) : (placeCommand s v).fbuf = s.fbuf := rfl
@[simp] theorem placeCommand_status (s : State) (v : Nat) : (placeCommand s v).status = s.status := rfl
@[simp] theorem placeCommand_config (s : State) (v : Nat) : (placeCommand s v).config = s.config := rfl
@[simp] theorem placeCommand_pending (s : State) (v : Nat) : (placeCommand s v).pending = .wr .cmd (.num v) :: s.pending := rfl
@[simp] theorem placeCommand_received (s : State) (v : Nat) : (placeCommand s v).received = s.received := rfl

/-! ### `setBuffer_pbuf` -/

@[simp] theorem setBuffer_pbuf_appkey (s : State) (m : Memory) : (s.setBuffer .pbuf m).appkey = s.appkey := rfl
@[simp] theorem setBuffer_pbuf_nwkkey (s : State) (m : Memory) : (s.setBuffer .pbuf m).nwkkey = s.nwkkey := rfl
@[simp] theorem setBuffer_pbuf_devaddr (s : State) (m : Memory) : (s.setBuffer .pbuf m).devaddr = s.devaddr := rfl
@[simp] theorem setBuffer_pbuf_fcnt (s : State) (m : Memory) : (s.setBuffer .pbuf m).fcnt = s.fcnt := rfl
@[simp] theorem setBuffer_pbuf_fctrl (s : State) (m : Memory) : (s.setBuffer .pbuf m).fctrl = s.fctrl := rfl
@[simp] theorem setBuffer_pbuf_fport (s : State) (m : Memory) : (s.setBuffer .pbuf m).fport = s.fport := rfl
@[simp] theorem setBuffer_pbuf_plen (s : State) (m : Memory) : (s.setBuffer .pbuf m).plen = s.plen := rfl
@[simp] theorem setBuffer_pbuf_pbuf (s : State) (m : Memory) : (s.setBuffer .pbuf m).pbuf = m := rfl
@[simp] theorem setBuffer_pbuf_flen (s : State) (m : Memory) : (s.setBuffer .pbuf m).flen = s.flen := rfl
@[simp] theorem setBuffer_pbuf_fbuf (s : State) (m : Memory) : (s.setBuffer .pbuf m).fbuf = s.fbuf := rfl
@[simp] theorem setBuffer_pbuf_status (s : State) (m : Memory) : (s.setBuffer .pbuf m).status = s.status := rfl
@[simp] theorem setBuffer_pbuf_config (s : State) (m : Memory) : (s.setBuffer .pbuf m).config = s.config := rfl
@[simp] theorem setBuffer_pbuf_pending (s : State) (m : Memory) : (s.setBuffer .pbuf m).pending = s.pending := rfl
@[simp] theorem setBuffer_pbuf_received (s : State) (m : Memory) : (s.setBuffer .pbuf m).received = s.received := rfl

/-! ### `setBuffer_fbuf` -/

@[simp] theorem setBuffer_fbuf_appkey (s : State) (m : Memory) : (s.setBuffer .fbuf m).appkey = s.appkey := rfl
@[simp] theorem setBuffer_fbuf_nwkkey (s : State) (m : Memory) : (s.setBuffer .fbuf m).nwkkey = s.nwkkey := rfl
@[simp] theorem setBuffer_fbuf_devaddr (s : State) (m : Memory) : (s.setBuffer .fbuf m).devaddr = s.devaddr := rfl
@[simp] theorem setBuffer_fbuf_fcnt (s : State) (m : Memory) : (s.setBuffer .fbuf m).fcnt = s.fcnt := rfl
@[simp] theorem setBuffer_fbuf_fctrl (s : State) (m : Memory) : (s.setBuffer .fbuf m).fctrl = s.fctrl := rfl
@[simp] theorem setBuffer_fbuf_fport (s : State) (m : Memory) : (s.setBuffer .fbuf m).fport = s.fport := rfl
@[simp] theorem setBuffer_fbuf_plen (s : State) (m : Memory) : (s.setBuffer .fbuf m).plen = s.plen := rfl
@[simp] theorem setBuffer_fbuf_pbuf (s : State) (m : Memory) : (s.setBuffer .fbuf m).pbuf = s.pbuf := rfl
@[simp] theorem setBuffer_fbuf_flen (s : State) (m : Memory) : (s.setBuffer .fbuf m).flen = s.flen := rfl
@[simp] theorem setBuffer_fbuf_fbuf (s : State) (m : Memory) : (s.setBuffer .fbuf m).fbuf = m := rfl
@[simp] theorem setBuffer_fbuf_status (s : State) (m : Memory) : (s.setBuffer .fbuf m).status = s.status := rfl
@[simp] theorem setBuffer_fbuf_config (s : State) (m : Memory) : (s.setBuffer .fbuf m).config = s.config := rfl
@[simp] theorem setBuffer_fbuf_pending (s : State) (m : Memory) : (s.setBuffer .fbuf m).pending = s.pending := rfl
@[simp] theorem setBuffer_fbuf_received (s : State) (m : Memory) : (s.setBuffer .fbuf m).received = s.received := rfl

/-! ### Status -/

@[simp] theorem withCode_fault (st : Status) (c : Code) : (st.withCode c).fault = st.fault := rfl
@[simp] theorem withCode_code (st : Status) (c : Code) : (st.withCode c).code = c := rfl
@[simp] theorem withFault_code (st : Status) (f : Fault) : (st.withFault f).code = st.code := rfl
@[simp] theorem withFault_fault (st : Status) (f : Fault) : (st.withFault f).fault = some (st.fault.getD f) := rfl

end Sys2Proof.Laws
end

