-- ==== Sys2Proof/Laws/Step.lean ====
section
/-! SUPPORT. Everything one step can do: the host's accesses one by one, then the step (10_state.md R33; 20_memory.md R56,
R60; 60_exceptions.md R220 to R222). -/

namespace Sys2Proof.Laws

open Sys2Proof.Machine

/-- What a write of a word to CMD can do (R214): nothing while FAULT is 1, the fault of an illegal word, or the command. -/
theorem command_cases (w : Byte) (s : State) :
    (s.status.fault ≠ none ∧ command w s = .next s) ∨
    (s.status.fault = none ∧ (∃ e, decode w = .error e) ∧ command w s = .next (takeFault .illegalCommand s)) ∨
    (s.status.fault = none ∧ ∃ i, decode w = .ok i ∧ command w s = exec i s) := by
  unfold command
  by_cases hf : s.status.fault = none
  · simp only [faulted_eq_false.2 hf, hf]
    cases decode w with
    | error e => simp
    | ok i => simp
  · simp [faulted_eq_true.2 hf, hf]

/-- Every write of a word to CMD answers a next state. -/
theorem command_next (w : Byte) (s : State) : ∃ t, command w s = .next t := by
  rcases command_cases w s with ⟨-, h⟩ | ⟨-, -, h⟩ | ⟨-, i, -, h⟩
  · exact ⟨_, h⟩
  · exact ⟨_, h⟩
  · exact ⟨_, h.trans (exec_eq i s)⟩

/-- What a write of a register other than CMD that is performed stores (R54, R56). -/
inductive Stores (s : State) : RegName → HostValue → State → Prop
  | appkey (bs : Bytes) : bs.length = 16 → Stores s .appkey (.str bs) { s with appkey := some (blockOf bs) }
  | nwkkey (bs : Bytes) : bs.length = 16 → Stores s .nwkkey (.str bs) { s with nwkkey := some (blockOf bs) }
  | devaddr (bs : Bytes) : bs.length = 4 → Stores s .devaddr (.str bs) { s with devaddr := some (devAddrOf bs) }
  | fcnt (n : Nat) : n < 2 ^ 16 → Stores s .fcnt (.num n) { s with fcnt := some (BitVec.ofNat 16 n) }
  | fctrl (n : Nat) : n < 2 ^ 8 → Stores s .fctrl (.num n) { s with fctrl := some (BitVec.ofNat 8 n) }
  | fport (n : Nat) : n < 2 ^ 8 → Stores s .fport (.num n) { s with fport := some (BitVec.ofNat 8 n) }
  | plen (n : Nat) : n < 2 ^ 8 → Stores s .plen (.num n) { s with plen := some (BitVec.ofNat 8 n) }
  | flen (n : Nat) : n < 2 ^ 8 → Stores s .flen (.num n) { s with flen := some (BitVec.ofNat 8 n) }

/-- Everything one action of the host can do, when it answers a next state. -/
theorem perform_cases {a : HostAccess} {s t : State} (h : perform a s = .next t) :
    (∃ n, a = .wr .cmd (.num n) ∧ n < 2 ^ 8 ∧ command (BitVec.ofNat 8 n) s = .next t) ∨
    (∃ r v, a = .wr r v ∧ Stores s r v t) ∨
    (∃ v, ((∃ r, a = .rd r ∧ readRegister r s = .ok v) ∨ ∃ b k, a = .rdb b k ∧ readBufferByte b k s = .ok v) ∧
      t = { s with received := s.received ++ [v] }) ∨
    (∃ b k v, a = .wrb b k v ∧ k < bufCap ∧ v < 2 ^ 8 ∧
      t = s.setBuffer b ((s.buffer b).write k (BitVec.ofNat 8 v))) ∨
    (a = .reset ∧ t = resetEvent s) := by
  cases a with
  | wr r v =>
    cases r <;> cases v <;> simp only [perform, hostWrite] at h <;> try contradiction
    all_goals
      split at h
      · rename_i hn
        first
          | exact .inl ⟨_, rfl, hn, h⟩
          | (obtain rfl := Host.Outcome.next.inj h
             refine .inr (.inl ⟨_, _, rfl, ?_⟩)
             constructor
             exact hn)
      · exact absurd h (by simp)
  | rd r =>
    simp only [perform, hostRead, answer] at h
    split at h
    · rename_i v hv
      obtain rfl := Host.Outcome.next.inj h
      exact .inr (.inr (.inl ⟨v, .inl ⟨r, rfl, hv⟩, rfl⟩))
    · exact absurd h (by simp)
  | wrb b k v =>
    simp only [perform, hostWriteByte] at h
    split at h
    · rename_i hk
      split at h
      · rename_i hv
        obtain rfl := Host.Outcome.next.inj h
        exact .inr (.inr (.inr (.inl ⟨b, k, v, rfl, hk, hv, rfl⟩)))
      · exact absurd h (by simp)
    · exact absurd h (by simp)
  | rdb b k =>
    simp only [perform, hostReadByte, answer] at h
    split at h
    · rename_i v hv
      obtain rfl := Host.Outcome.next.inj h
      exact .inr (.inr (.inl ⟨v, .inr ⟨b, k, rfl, hv⟩, rfl⟩))
    · exact absurd h (by simp)
  | reset =>
    simp only [perform] at h
    obtain rfl := Host.Outcome.next.inj h
    exact .inr (.inr (.inr (.inr ⟨rfl, rfl⟩)))

/-- Everything a step can do: stay idle, or perform the host's next action (R33, R60, R228). -/
theorem step_cases {s t : State} (h : step s = .next t) :
    (s.pending = [] ∧ t = s) ∨ ∃ a rest, s.pending = a :: rest ∧ perform a { s with pending := rest } = .next t := by
  unfold step stepHost at h
  split at h
  · rename_i hp
    exact .inl ⟨hp, (Host.Outcome.next.inj h).symm⟩
  · rename_i a rest hp
    exact .inr ⟨a, rest, hp, h⟩

end Sys2Proof.Laws
end

