-- ==== Sys2Proof/Tests/Slice0.lean ====
section
/-! SUPPORT. The model's own tests. Every expected value is the spec's (95_test_vectors.md unless another file is named). The
theorems `witness_<Name>` show a concrete state that meets the hypotheses of the obligation of that name, each clause at
a boundary value. -/

namespace Sys2Proof.Tests

open Sys2Proof.Machine

/-! ### Small states -/

/-- The header of the scenario S1. -/
def s1Header : Header := { dev := #v[1, 2, 3, 4], fctrl := 0, fcnt := 1, fport := 1 }

/-- An engine with the keys, the header and the payload of S1 and no results. -/
def sender (plen : Byte) (payload : Bytes) : State :=
  { State.reset with
    appkey := some zeroBlock, nwkkey := some zeroBlock, devaddr := some s1Header.dev, fcnt := some s1Header.fcnt,
    fctrl := some s1Header.fctrl, fport := some s1Header.fport, plen := some plen,
    pbuf := Memory.writeBytes [] 0 payload }

/-- An engine with zero keys and a received frame. -/
def receiver (f : Bytes) : State :=
  { State.reset with
    appkey := some zeroBlock, nwkkey := some zeroBlock, flen := some (BitVec.ofNat 8 f.length),
    fbuf := Memory.writeBytes [] 0 f }

/-- The payload "hi" of S1. -/
def hi : Bytes := [0x68, 0x69]

/-- V-CODEC-1's frame. -/
def frame1 : Bytes := [0xE0, 1, 2, 3, 4, 0, 1, 0, 1, 0xD8, 0x62, 0x4F, 0x93, 0x2B, 0x89]

/-- V-CODEC-7's frame: S1 encoded with ENCODE.DN. -/
def frame7 : Bytes := [0xE0, 1, 2, 3, 4, 0, 1, 0, 1, 0x08, 0x98, 0xAC, 0x8B, 0x8F, 0xA2]

/-- V-CODEC-4's frame: S1 with an empty payload. -/
def frame4 : Bytes := [0xE0, 1, 2, 3, 4, 0, 1, 0, 1, 0x70, 0xDE, 0x1F, 0x8E]

/-- A payload of `n` bytes, byte `j` is `7j + 3` (V-CODEC-12). -/
def ramp (n : Nat) : Bytes := (List.range n).map fun j => BitVec.ofNat 8 (7 * j + 3)

/-- The state with one host action pending. -/
def doing (a : HostAccess) (s : State) : State := { s with pending := [a] }

/-! ### WellFormed refuses ill-formed terms -/

theorem test_wf_reserved_bits : ({ rsv := 1, dir := 0, op := 1 } : CommandFields).wellFormed = false := by decide
theorem test_wf_op_zero : ({ rsv := 0, dir := 1, op := 0 } : CommandFields).wellFormed = false := by decide
theorem test_wf_op_three : ({ rsv := 0, dir := 0, op := 3 } : CommandFields).wellFormed = false := by decide
theorem test_wf_instr : ∀ i ∈ [Instr.encodeUp, .encodeDn, .decodeUp, .decodeDn], i.wellFormed = true := by decide
theorem test_wf_value_too_wide : (HostAccess.wr .plen (.num 256)).wellFormed = false := by decide
theorem test_wf_fcnt_too_wide : (HostAccess.wr .fcnt (.num 65536)).wellFormed = false := by decide
theorem test_wf_partial_key : (HostAccess.wr .appkey (.str [1, 2, 3])).wellFormed = false := by decide
theorem test_wf_string_to_number : (HostAccess.wr .fcnt (.str [1, 0])).wellFormed = false := by decide
theorem test_wf_number_to_string : (HostAccess.wr .devaddr (.num 1)).wellFormed = false := by decide
theorem test_wf_status_write : (HostAccess.wr .status (.num 0)).wellFormed = false := by decide
theorem test_wf_key_read : (HostAccess.rd .nwkkey).wellFormed = false := by decide
theorem test_wf_cmd_read : (HostAccess.rd .cmd).wellFormed = false := by decide
theorem test_wf_offset_255 : (HostAccess.rdb .pbuf 255).wellFormed = false := by decide
theorem test_wf_write_offset_255 : (HostAccess.wrb .fbuf 255 0).wellFormed = false := by decide
theorem test_wf_byte_too_wide : (HostAccess.wrb .fbuf 0 256).wellFormed = false := by decide

/-! ### Decode: every word written out from R82 and R83 -/

theorem test_decode_encodeUp : decode 0b00000001 = .ok .encodeUp := by decide
theorem test_decode_encodeDn : decode 0b00000101 = .ok .encodeDn := by decide
theorem test_decode_decodeUp : decode 0b00000010 = .ok .decodeUp := by decide
theorem test_decode_decodeDn : decode 0b00000110 = .ok .decodeDn := by decide
theorem test_decode_zero : decode 0x00 = .error (.reservedOp 0) := by decide
theorem test_decode_op_three : decode 0x07 = .error (.reservedOp 3) := by decide
theorem test_decode_reserved_bits : decode 0x81 = .error (.reservedBits 16) := by decide

/-- No word is two rows' command (R83). -/
theorem test_rows_disjoint :
    commandMap.Pairwise fun a b => ¬ (a.pattern &&& (a.mask &&& b.mask)) = b.pattern &&& (a.mask &&& b.mask) := by decide

/-- The map has a row for a word exactly when the decoder answers a command (R83, R84). -/
theorem test_map_is_complete : ∀ w : Byte,
    (commandMap.any fun r => w &&& r.mask == r.pattern) = (decode w).toBool := by decide +kernel

theorem test_tableWord : decodeTableWord 8 0x06 = some .decodeDn ∧ decodeTableWord 8 0x03 = none := by decide

/-! ### The units -/

/-- V-CTR-1. -/
theorem test_ctrblk_counter_low_byte_first : (ctrblk .uplink #v[1, 2, 3, 4] 0x0100 0).toList =
    [1, 0, 0, 0, 0, 0, 1, 2, 3, 4, 0, 1, 0, 0, 0, 0] := by decide

/-- V-CTR-2. -/
theorem test_ctrblk_index_low_byte_first : (ctrblk .uplink #v[1, 2, 3, 4] 1 0x0100).toList =
    [1, 0, 0, 0, 0, 0, 1, 2, 3, 4, 1, 0, 0, 0, 0, 1] := by decide

/-- The authentication block in V-MAC-4. -/
theorem test_authblk : (authblk .downlink #v[0xDE, 0xAD, 0xBE, 0xEF] 0x1234 0x1D).toList =
    [0x49, 0, 0, 0, 0, 1, 0xDE, 0xAD, 0xBE, 0xEF, 0x34, 0x12, 0, 0, 0, 0x1D] := by decide

/-- "57 • 02 = AE, 57 • 13 = FE, 57 • 83 = C1; inverse of 53 is CA". -/
theorem test_gfMul : gfMul 0x57 0x02 = 0xAE ∧ gfMul 0x57 0x13 = 0xFE ∧ gfMul 0x57 0x83 = 0xC1 ∧ gfMul 0x53 0xCA = 1 := by
  decide

/-- "SBOX[00] = 63, SBOX[01] = 7C, SBOX[53] = ED, SBOX[FF] = 16". -/
theorem test_sbox : sbox 0 = 0x63 ∧ sbox 1 = 0x7C ∧ sbox 0x53 = 0xED ∧ sbox 0xFF = 0x16 := by decide

/-- V-AES-1. -/
theorem test_aes : (aes128 #v[0, 1, 2, 3, 4, 5, 6, 7, 8, 9, 10, 11, 12, 13, 14, 15]
    #v[0x00, 0x11, 0x22, 0x33, 0x44, 0x55, 0x66, 0x77, 0x88, 0x99, 0xAA, 0xBB, 0xCC, 0xDD, 0xEE, 0xFF]).toList =
    [0x69, 0xC4, 0xE0, 0xD8, 0x6A, 0x7B, 0x04, 0x30, 0xD8, 0xCD, 0xB7, 0x80, 0x70, 0xB4, 0xC5, 0x5A] := by decide +kernel

/-- V-STR-3: two blocks, the second partial. -/
theorem test_stream : stream aes128 zeroBlock .uplink #v[1, 2, 3, 4] 1 (List.replicate 17 0) =
    [0xB0, 0x0B, 0x7C, 0x82, 0xE7, 0x46, 0xEF, 0xA1, 0x82, 0x9F, 0x07, 0xB6, 0x4C, 0xF5, 0xAC, 0xE7, 0xD6] := by
  decide +kernel

/-- `dbl(80 00 … 00) = 00 … 00 87`, `dbl(FF × 16) = FF × 15 ‖ 79`. -/
theorem test_dbl : dbl (blockOf [0x80]) = blockOf (List.replicate 15 0 ++ [0x87]) ∧
    dbl (mkBlock fun _ => 0xFF) = blockOf (List.replicate 15 0xFF ++ [0x79]) := by decide +kernel

/-- V-MAC-3, the `K1` path. -/
theorem test_cmac_full_last_block : (mac16 aes128 .cmac
    #v[0x2B, 0x7E, 0x15, 0x16, 0x28, 0xAE, 0xD2, 0xA6, 0xAB, 0xF7, 0x15, 0x88, 0x09, 0xCF, 0x4F, 0x3C]
    ([0x49, 0, 0, 0, 0, 0, 0x11, 0x22, 0x33, 0x44, 0xFF, 0xFF, 0, 0, 0, 0x10] ++
      [0xE0, 0x11, 0x22, 0x33, 0x44, 0xFF, 0xFF, 0xFF, 0xFF, 0x54, 0xE0, 0xD5, 0xDC, 0x46, 0x95, 0xDE])).toList =
    [0xCF, 0x08, 0xFC, 0x29, 0x4F, 0x95, 0x48, 0xB7, 0x66, 0xB9, 0x35, 0xD4, 0xE9, 0x98, 0x6C, 0x36] := by decide +kernel

/-- V-MAC-1, PLAIN mode. -/
theorem test_plain_mac : (mac16 aes128 .plain zeroBlock
    ([0x49, 0, 0, 0, 0, 0, 1, 2, 3, 4, 1, 0, 0, 0, 0, 0x0B] ++ [0xE0, 1, 2, 3, 4, 0, 1, 0, 1, 0xD8, 0x62])).toList =
    [0x2A, 0x26, 0x8C, 0x3C, 0xD3, 0x7C, 0xDD, 0xAA, 0xE9, 0x9A, 0xA4, 0x10, 0x2F, 0x26, 0x9B, 0x2E] := by decide +kernel

/-- V-CMP-1, V-CMP-3, V-CMP-5. -/
theorem test_tagcmp : tagcmp .four [0x4F, 0x93, 0x2B, 0x89] [0x4F, 0x93, 0x2B, 0x89] = true ∧
    tagcmp .four [0x4F, 0x93, 0x2B, 0x89] [0x4F, 0x93, 0x2B, 0x88] = false ∧
    tagcmp .four [0x4F, 0x93, 0x2B, 0x89] [0xB0, 0x6C, 0xD4, 0x76] = false := by decide

/-! ### The commands, one step each -/

theorem seal_up : sealFrame Config.default .uplink zeroBlock zeroBlock s1Header hi = frame1 := by decide +kernel

theorem seal_dn : sealFrame Config.default .downlink zeroBlock zeroBlock s1Header hi = frame7 := by decide +kernel

/-- V-CODEC-1: ENCODE.UP. -/
theorem test_encodeUp : exec .encodeUp (sender 2 hi) = .next { sender 2 hi with
    fbuf := Memory.writeBytes [] 0 frame1, flen := some 15, status := { fault := none, code := .ok } } := by
  have h : exec .encodeUp (sender 2 hi) = .next (writeFrame
    (sealFrame Config.default .uplink zeroBlock zeroBlock s1Header hi) (sender 2 hi)) := rfl
  rw [h, seal_up]; rfl

/-- V-CODEC-7: ENCODE.DN. -/
theorem test_encodeDn : exec .encodeDn (sender 2 hi) = .next { sender 2 hi with
    fbuf := Memory.writeBytes [] 0 frame7, flen := some 15, status := { fault := none, code := .ok } } := by
  have h : exec .encodeDn (sender 2 hi) = .next (writeFrame
    (sealFrame Config.default .downlink zeroBlock zeroBlock s1Header hi) (sender 2 hi)) := rfl
  rw [h, seal_dn]; rfl

/-- V-CODEC-12: one byte beyond the maximum is PayloadTooLarge, and nothing else is written. -/
theorem test_encode_too_large : exec .encodeUp (sender 243 []) =
    .next { sender 243 [] with status := { fault := none, code := .error .payloadTooLarge } } := rfl

theorem open_up : openFrame Config.default .uplink zeroBlock zeroBlock frame1 =
    .ok { fctrl := 0, fport := 1, fcnt := 1, payload := hi } := by decide +kernel

theorem open_dn : openFrame Config.default .downlink zeroBlock zeroBlock frame7 =
    .ok { fctrl := 0, fport := 1, fcnt := 1, payload := hi } := by decide +kernel

theorem open_wrong_direction : openFrame Config.default .downlink zeroBlock zeroBlock frame1 =
    .error .authenticationFailed := by decide +kernel

theorem open_shortest : openFrame Config.default .uplink zeroBlock zeroBlock frame4 =
    .ok { fctrl := 0, fport := 1, fcnt := 1, payload := [] } := by decide +kernel

/-- What a DECODE that succeeds leaves of a receiver, for an S1 frame. -/
def opened (f payload : Bytes) : State :=
  { receiver f with
    pbuf := Memory.writeBytes [] 0 payload, plen := some (BitVec.ofNat 8 payload.length), fctrl := some 0,
    fport := some 1, fcnt := some 1, status := { fault := none, code := .ok } }

/-- A DECODE of a receiver whose frame opens. -/
theorem decode_opens (d : Direction) (f : Bytes) (x : Opened)
    (ho : decodeOperands (receiver f) = some ⟨zeroBlock, zeroBlock, f⟩)
    (hx : openFrame Config.default d zeroBlock zeroBlock f = .ok x) :
    exec (decodeInstr d) (receiver f) = .next (writeOpened x (receiver f)) := by
  have h := Laws.decodeRunT_val_of_some (d := d) (s := receiver f) rfl ho
  rw [show openFrame (receiver f).config d zeroBlock zeroBlock f = .ok x from hx] at h
  cases d <;> exact congrArg (fun x => Host.Outcome.next (commit x _)) h

/-- A DECODE of a receiver whose frame is rejected. -/
theorem decode_rejects (d : Direction) (f : Bytes) (e : ErrorCode)
    (ho : decodeOperands (receiver f) = some ⟨zeroBlock, zeroBlock, f⟩)
    (hx : openFrame Config.default d zeroBlock zeroBlock f = .error e) :
    exec (decodeInstr d) (receiver f) = .next (raiseError e (receiver f)) := by
  have h := Laws.decodeRunT_val_of_some (d := d) (s := receiver f) rfl ho
  rw [show openFrame (receiver f).config d zeroBlock zeroBlock f = .error e from hx] at h
  cases d <;> exact congrArg (fun x => Host.Outcome.next (commit x _)) h

/-- V-CODEC-3: DECODE.UP of V-CODEC-1's frame. -/
theorem test_decodeUp : exec .decodeUp (receiver frame1) = .next (opened frame1 hi) :=
  decode_opens .uplink frame1 _ (by decide +kernel) open_up

/-- V-CODEC-7: DECODE.DN of the Downlink frame. -/
theorem test_decodeDn : exec .decodeDn (receiver frame7) = .next (opened frame7 hi) :=
  decode_opens .downlink frame7 _ (by decide +kernel) open_dn

/-- V-CODEC-7: DECODE.DN of an Uplink frame. -/
theorem test_decodeDn_wrong_direction : exec .decodeDn (receiver frame1) = .next { receiver frame1 with
    status := { fault := none, code := .error .authenticationFailed } } :=
  decode_rejects .downlink frame1 _ (by decide +kernel) open_wrong_direction

/-- V-CODEC-4: DECODE.UP of the shortest frame. -/
theorem test_decodeUp_shortest : exec .decodeUp (receiver frame4) = .next (opened frame4 []) :=
  decode_opens .uplink frame4 _ (by decide +kernel) open_shortest

/-- V-CODEC-6: the empty frame. -/
theorem test_decode_too_short : exec .decodeUp (receiver []) =
    .next { receiver [] with status := { fault := none, code := .error .frameTooShort } } := rfl

/-- V-CODEC-6: the first byte changed to 0x40. -/
theorem test_decode_bad_marker : exec .decodeUp (receiver (0x40 :: frame4.tail)) =
    .next { receiver (0x40 :: frame4.tail) with status := { fault := none, code := .error .badMarker } } := rfl

/-- R219: a command in the reset state faults, and CODE stays IDLE. -/
theorem test_step_after_reset : step (State.reset.withFetchWord 8 0x01) =
    .next { State.reset with status := { fault := some .unwrittenOperand, code := .idle } } := rfl

/-- R220, R221: the word 0x03 faults; while FAULT is 1 a legal word is ignored. -/
theorem test_illegal_word : step (doing (.wr .cmd (.num 3)) State.reset) =
    .next { State.reset with status := { fault := some .illegalCommand, code := .idle } } := rfl

/-- R85: STATUS reads 0x80 after a fault in the reset state. -/
theorem test_status_byte : (Status.mk (some .illegalCommand) .idle).toByte = 0x80 ∧
    (Status.mk none (.error .authenticationFailed)).toByte = 0x05 := by decide

/-- R222: offset 255 does not exist; a `⊥` is not read. -/
theorem test_refusals : perform (.rdb .pbuf 255) State.reset = .refused (.noSuchOffset .pbuf 255) ∧
    perform (.rd .fcnt) State.reset = .refused (.unwrittenRegister .fcnt) ∧
    perform (.wr .plen (.num 256)) State.reset = .refused (.valueTooWide .plen) := ⟨rfl, rfl, rfl⟩

/-- R90: `FILLP "hi"` is two byte writes and the write of PLEN. -/
theorem test_fillp : fillp hi = [.wrb .pbuf 0 0x68, .wrb .pbuf 1 0x69, .wr .plen (.num 2)] := by decide

/-! ### Witnesses: the hypotheses of the obligations can be met -/

theorem witness_DecodeOfEncodeIsTheCommand : Instr.encodeDn.wellFormed = true ∧ decode 0x06 = .ok .decodeDn := by decide

theorem witness_ReservedWordsFault : ∀ w ∈ [(0x00 : Byte), 0x03, 0x04, 0x07, 0x08, 0xFF],
    (doing (.wr .cmd (.num w.toNat)) State.reset).pending = .wr .cmd (.num w.toNat) :: [] ∧
    (doing (.wr .cmd (.num w.toNat)) State.reset).status.fault = none ∧
    w ≠ 0x01 ∧ w ≠ 0x02 ∧ w ≠ 0x05 ∧ w ≠ 0x06 := by decide

theorem witness_StepRunsTheDecodedCommand :
    ((doing (.wr .cmd (.num 6)) State.reset).pending = .wr .cmd (.num 6) :: [] ∧ 6 < 256 ∧
      decode (BitVec.ofNat 8 6) = .ok .decodeDn) ∧
    (1 < 256 ∧ decodeTableWord 8 1 = some .encodeUp) ∧ State.reset.pending = [] := by decide

/-- An engine with all the operands of both commands: `PBUF[0..plen)` and a frame. -/
def ready (plen : Byte) (payload f : Bytes) : State :=
  { sender plen payload with flen := (receiver f).flen, fbuf := (receiver f).fbuf }

/-- The payload of a sender is what was written. -/
theorem sender_payload (plen : Byte) (p : Bytes) : (sender plen p).pbuf.readBytes 0 p.length = some p :=
  Laws.readBytes_writeBytes [] 0 p

@[simp] theorem ramp_length (n : Nat) : (ramp n).length = n := by simp [ramp]

/-- The operands of a sender but its payload are written. -/
theorem sender_is_written (n : Byte) (p : Bytes) :
    (sender n p).status.fault = none ∧ (sender n p).appkey = some zeroBlock ∧ (sender n p).nwkkey = some zeroBlock ∧
    (sender n p).devaddr = some s1Header.dev ∧ (sender n p).fcnt = some 1 ∧ (sender n p).fctrl = some 0 ∧
    (sender n p).fport = some 1 ∧ (sender n p).plen = some n := ⟨rfl, rfl, rfl, rfl, rfl, rfl, rfl, rfl⟩

/-- The clauses beside `sender_is_written`: every length from 0 to 242, then 243 and 255. -/
theorem witness_EncodeWritesTheFrame :
    (∀ n : Fin 243,
      (BitVec.ofNat 8 n.val).toNat ≤ 255 - 9 - tagLength (sender (BitVec.ofNat 8 n.val) (ramp n.val)).config.tagLen ∧
      (sender (BitVec.ofNat 8 n.val) (ramp n.val)).pbuf.readBytes 0 (BitVec.ofNat 8 n.val).toNat = some (ramp n.val)) ∧
    ∀ n ∈ [(243 : Byte), 255], n.toNat > 255 - 9 - tagLength (sender n []).config.tagLen := by
  refine ⟨fun n => ?_, by decide⟩
  have e : (BitVec.ofNat 8 n.val).toNat = n.val := by simp; omega
  have h := sender_payload (BitVec.ofNat 8 n.val) (ramp n.val)
  rw [ramp_length] at h
  rw [e]
  exact ⟨by have := n.isLt; show n.val ≤ 242; omega, h⟩

theorem witness_EncodeSizeCheckIsExact :
    (∃ t, exec (encodeInstr .uplink) (sender 2 hi) = .next t ∧ (sender 2 hi).status.fault = none ∧
      (encodeOperands (sender 2 hi)).isSome = true ∧ (sender 2 hi).plen = some 2 ∧ t.status.code = .ok) ∧
    (∃ t, exec (encodeInstr .uplink) (sender 243 []) = .next t ∧ (sender 243 []).status.fault = none ∧
      (encodeOperands (sender 243 [])).isSome = true ∧ (sender 243 []).plen = some 243 ∧
      t.status.code = .error .payloadTooLarge) ∧
    ∃ t o, exec (encodeInstr .downlink) (sender 242 (ramp 242)) = .next t ∧
      encodeOperands (sender 242 (ramp 242)) = some o ∧ (sender 242 (ramp 242)).plen = some 242 := by
  refine ⟨⟨_, test_encodeUp, rfl, rfl, rfl, rfl⟩, ⟨_, test_encode_too_large, rfl, rfl, rfl, rfl⟩,
    ⟨_, ⟨zeroBlock, zeroBlock, s1Header, 242, ramp 242⟩, Laws.exec_eq (encodeInstr .downlink) _, ?_, rfl⟩⟩
  have h := sender_payload 242 (ramp 242)
  rw [ramp_length] at h
  exact (Laws.encodeOperands_eq_some _ _).2 ⟨rfl, rfl, rfl, rfl, rfl, rfl, ⟨242, rfl, rfl⟩, by
    rw [payloadOperand, if_pos (by decide)]; exact h⟩

theorem witness_EncodeLeavesEverythingElse :
    (∃ t, exec (encodeInstr .downlink) (sender 2 hi) = .next t ∧ t.status.code = .ok ∧
      (sender 2 hi).plen = some 2) ∧
    (∃ t, exec (encodeInstr .uplink) State.reset = .next t ∧ encodeOperands State.reset = none) ∧
    (∃ t, exec (encodeInstr .uplink) (sender 243 []) = .next t ∧ (sender 243 []).plen = some 243 ∧
      243 > 255 - 9 - tagLength (sender 243 []).config.tagLen) ∧
    ∃ s t, s.status.fault ≠ none ∧ exec (encodeInstr .uplink) s = .next t :=
  ⟨⟨_, test_encodeDn, rfl, rfl⟩, ⟨_, rfl, rfl⟩, ⟨_, test_encode_too_large, rfl, by decide⟩,
    takeFault .illegalCommand State.reset, _, by decide, rfl⟩

theorem witness_EncodeOfAnEmptyPayload : let s := sender 0 []
    s.status.fault = none ∧ s.appkey = some zeroBlock ∧ s.nwkkey = some zeroBlock ∧ s.devaddr = some s1Header.dev ∧
    s.fcnt = some 1 ∧ s.fctrl = some 0 ∧ s.fport = some 1 ∧ s.plen = some 0 := by decide +kernel

theorem witness_FrameLayoutByOffset : (ramp 242).length ≤ maxPayload Config.default.tagLen ∧
    ([] : Bytes).length ≤ maxPayload .eight := ⟨by rw [ramp_length]; decide, by decide⟩

/-- The keys, FLEN and the frame of a receiver are written. -/
theorem receiver_is_written : ∀ f ∈ [[], frame4, frame4.take 12, 0x40 :: frame4.tail, frame1],
    (receiver f).status.fault = none ∧ (receiver f).appkey = some zeroBlock ∧ (receiver f).nwkkey = some zeroBlock ∧
    (receiver f).flen = some (BitVec.ofNat 8 f.length) ∧
    (receiver f).fbuf.readBytes 0 (BitVec.ofNat 8 f.length).toNat = some f := by decide +kernel

/-- The clauses beside `receiver_is_written`, for the shortest frame that V-CODEC-4 gives. -/
theorem witness_DecodeReturnsThePlaintext : frame4 ∈ [[], frame4, frame4.take 12, 0x40 :: frame4.tail, frame1] ∧
    9 + tagLength (receiver frame4).config.tagLen ≤ 13 ∧ frame4.getD 0 0 = (receiver frame4).config.marker ∧
    trunc .four (mac16 aes128 .cmac zeroBlock ((authblk .uplink #v[1, 2, 3, 4] 1 9).toList ++ frame4.take 9)) =
      frame4.drop 9 := by decide +kernel

/-- The clauses beside `receiver_is_written`: 12 bytes, the Marker 0x40, and a frame of the other direction. -/
theorem witness_DecodeReportsTheFirstFailingCheck :
    12 < 9 + tagLength (receiver (frame4.take 12)).config.tagLen ∧
    (9 + tagLength (receiver (0x40 :: frame4.tail)).config.tagLen ≤ 13 ∧
      (0x40 :: frame4.tail : Bytes).getD 0 0 ≠ (receiver (0x40 :: frame4.tail)).config.marker) ∧
    9 + tagLength (receiver frame1).config.tagLen ≤ 15 ∧ frame1.getD 0 0 = (receiver frame1).config.marker ∧
    trunc .four (mac16 aes128 .cmac zeroBlock ((authblk .downlink #v[1, 2, 3, 4] 1 11).toList ++ frame1.take 11)) ≠
      frame1.drop 11 := by decide +kernel

theorem witness_NoDecryptionBeforeAuthentication : ∃ t, (receiver frame1).status.fault = none ∧
    exec (decodeInstr .downlink) (receiver frame1) = .next t ∧
    t.status = { fault := none, code := .error .authenticationFailed } := ⟨_, rfl, test_decodeDn_wrong_direction, rfl⟩

theorem witness_DecodeLeavesEverythingElse :
    (∃ t, exec (decodeInstr .uplink) (receiver frame1) = .next t ∧ (receiver frame1).flen = some 15) ∧
    (∃ t, exec (decodeInstr .uplink) (receiver []) = .next t ∧ t.status.code ≠ .ok) ∧
    (∃ t, exec (decodeInstr .uplink) State.reset = .next t ∧ t.status.fault ≠ none) ∧
    ∃ s t, s.status.fault ≠ none ∧ exec (decodeInstr .downlink) s = .next t :=
  ⟨⟨_, test_decodeUp, rfl⟩, ⟨_, rfl, by decide⟩, ⟨_, rfl, by decide⟩,
    takeFault .illegalCommand State.reset, _, by decide, rfl⟩

theorem witness_DecodeOfAnEmptyPayload : ∃ t, (receiver frame4).status.fault = none ∧
    (receiver frame4).flen = some 13 ∧ (13 : Byte).toNat = minFrame (receiver frame4).config.tagLen ∧
    exec (decodeInstr .uplink) (receiver frame4) = .next t ∧ t.status = { fault := none, code := .ok } :=
  ⟨_, rfl, rfl, by decide, test_decodeUp_shortest, rfl⟩

theorem witness_ReplayedFrameIsAccepted : ∃ t, (receiver frame7).Inv ∧ (receiver frame7).status.fault = none ∧
    exec (decodeInstr .downlink) (receiver frame7) = .next t ∧ t.status = { fault := none, code := .ok } :=
  ⟨_, ⟨rfl, rfl⟩, rfl, test_decodeDn, rfl⟩

theorem witness_EncodeThenDecodeGivesTheInputsBack : ∃ t, (sender 2 hi).status.fault = none ∧
    exec (encodeInstr .uplink) (sender 2 hi) = .next t ∧ t.status = { fault := none, code := .ok } :=
  ⟨_, rfl, test_encodeUp, rfl⟩

/-- The sender's state is the one before; the receiver is `receiver frame1`. -/
theorem witness_TwoEnginesWithTheSameKeysInteroperate : ∃ t, (sender 2 hi).status.fault = none ∧
    exec (encodeInstr .uplink) (sender 2 hi) = .next t ∧ t.status = { fault := none, code := .ok } ∧
    (receiver frame1).status.fault = none ∧ (receiver frame1).config = (sender 2 hi).config ∧
    (receiver frame1).appkey = (sender 2 hi).appkey ∧ (receiver frame1).nwkkey = (sender 2 hi).nwkkey ∧
    (receiver frame1).flen = t.flen ∧
    ∀ l : Byte, t.flen = some l → ∀ k, k < l.toNat → (receiver frame1).fbuf.read k = t.fbuf.read k :=
  ⟨_, rfl, test_encodeUp, rfl, rfl, rfl, rfl, rfl, rfl, fun _ _ _ _ => rfl⟩

/-- A changed Marker, and a changed last byte of the tag. -/
theorem witness_ChangedMarkerOrTagIsRejected :
    let g := sealFrame Config.default .uplink zeroBlock zeroBlock s1Header hi
    hi.length ≤ maxPayload Config.default.tagLen ∧
    (∃ f : Bytes, f.length = g.length ∧ f.getD 0 0 ≠ Config.default.marker) ∧
    ∃ f : Bytes, f.length = g.length ∧ f.take (9 + hi.length) = g.take (9 + hi.length) ∧ f ≠ g := by
  rw [seal_up]
  exact ⟨by decide, ⟨0 :: frame1.tail, by decide⟩, ⟨frame1.take 14 ++ [0x88], by decide⟩⟩

/-- The same operands, and results of an earlier command in the one engine only. -/
theorem witness_ResultDependsOnlyOnTheReadSet :
    (∃ t₁ t₂, let s₁ := sender 2 hi
      let s₂ := ready 2 hi frame7
      s₁.config = s₂.config ∧ s₁.status.fault = none ∧ s₂.status.fault = none ∧ s₁.appkey = s₂.appkey ∧
      s₁.nwkkey = s₂.nwkkey ∧ s₁.devaddr = s₂.devaddr ∧ s₁.fcnt = s₂.fcnt ∧ s₁.fctrl = s₂.fctrl ∧ s₁.fport = s₂.fport ∧
      s₁.plen = s₂.plen ∧ (∀ n : Byte, s₁.plen = some n → ∀ k, k < n.toNat → s₁.pbuf.read k = s₂.pbuf.read k) ∧
      exec (encodeInstr .uplink) s₁ = .next t₁ ∧ exec (encodeInstr .uplink) s₂ = .next t₂ ∧ s₁ ≠ s₂ ∧
      t₁.status = { fault := none, code := .ok }) ∧
    ∃ t₁ t₂, let s₁ := receiver frame1
      let s₂ := ready 1 [] frame1
      s₁.config = s₂.config ∧ s₁.status.fault = none ∧ s₂.status.fault = none ∧ s₁.appkey = s₂.appkey ∧
      s₁.nwkkey = s₂.nwkkey ∧ s₁.flen = s₂.flen ∧
      (∀ l : Byte, s₁.flen = some l → ∀ k, k < l.toNat → s₁.fbuf.read k = s₂.fbuf.read k) ∧
      exec (decodeInstr .uplink) s₁ = .next t₁ ∧ exec (decodeInstr .uplink) s₂ = .next t₂ ∧ s₁ ≠ s₂ ∧
      t₁.status = { fault := none, code := .ok } :=
  ⟨⟨_, _, rfl, rfl, rfl, rfl, rfl, rfl, rfl, rfl, rfl, rfl, fun _ _ _ _ => rfl, test_encodeUp, Laws.exec_eq .encodeUp _,
      by decide, rfl⟩,
    ⟨_, _, rfl, rfl, rfl, rfl, rfl, rfl, fun _ _ _ _ => rfl, test_decodeUp, Laws.exec_eq .decodeUp _, by decide, rfl⟩⟩

theorem witness_ErrorWritesOnlyItsCode :
    (∃ t, (sender 255 []).status.fault = none ∧ exec .encodeDn (sender 255 []) = .next t ∧
      t.status = { fault := none, code := .error .payloadTooLarge }) ∧
    ∃ t, (receiver []).status.fault = none ∧ exec .decodeUp (receiver []) = .next t ∧
      t.status = { fault := none, code := .error .frameTooShort } := ⟨⟨_, rfl, rfl, rfl⟩, ⟨_, rfl, rfl, rfl⟩⟩

/-- The clause beside `receiver_is_written` and `sender_is_written`, with 255 bytes. -/
theorem witness_CommandsEndOnEveryInput :
    (sender 255 (ramp 255)).pbuf.readBytes 0 (255 : Byte).toNat = some (ramp 255) := by
  have h := sender_payload 255 (ramp 255)
  rwa [ramp_length] at h

/-- The last byte of the payload unwritten, nothing unwritten, and the last byte of the frame unwritten. -/
theorem witness_UnwrittenOperandFaults :
    ((sender 2 [0x68]).status.fault = none ∧ 2 ≤ 255 - 9 - tagLength (sender 2 [0x68]).config.tagLen ∧
      (sender 2 [0x68]).pbuf.read 1 = none) ∧
    (encodeOperands (sender 2 hi)).isSome = true ∧
    ({ receiver frame1 with flen := some 16 } : State).fbuf.read 15 = none := by decide +kernel

theorem witness_FaultIsStickyAndWritesNothingElse :
    (∃ t, step (doing (.wr .cmd (.num 0)) State.reset) = .next t ∧ State.reset.status.fault = none ∧
      t.status.fault = some .illegalCommand) ∧
    ∃ s t, step s = .next t ∧ s.status.fault = some .unwrittenOperand ∧ s.pending.head? ≠ some .reset :=
  ⟨⟨_, rfl, rfl, rfl⟩, doing (.wr .plen (.num 0)) (takeFault .unwrittenOperand State.reset), _, rfl, rfl, by decide⟩

theorem witness_FaultedEngineIgnoresCommands :
    let s := takeFault .unwrittenOperand (sender 2 hi)
    s.status.fault ≠ none ∧ (doing (.wr .cmd (.num 255)) s).pending = .wr .cmd (.num 255) :: [] ∧
    (∃ t, (∀ v, HostAccess.rd .fcnt ≠ .wr .cmd v) ∧ HostAccess.rd .fcnt ≠ .rd .status ∧ HostAccess.rd .fcnt ≠ .reset ∧
      perform (.rd .fcnt) s = .next t) :=
  ⟨by decide, rfl, _, by simp, by decide, by decide, rfl⟩

theorem witness_RefusedExactlyWhereNoActionExists :
    ∀ a ∈ [HostAccess.rd .appkey, .rd .fcnt, .wrb .pbuf 254 255, .rdb .fbuf 255, .reset],
      (doing a State.reset).pending = a :: [] := by decide

theorem witness_StepKeepsTheBuffersCanonical : ∃ t, (doing (.wrb .fbuf 254 255) (receiver frame1)).Inv ∧
    step (doing (.wrb .fbuf 254 255) (receiver frame1)) = .next t := ⟨_, ⟨rfl, rfl⟩, rfl⟩

theorem witness_ResetEventGivesTheResetState : (doing .reset (receiver frame1)).pending = .reset :: [] := rfl

theorem witness_OnlyResetUnwrites : ∃ t, step (doing (.wr .flen (.num 0)) (receiver frame1)) = .next t ∧
    (doing (.wr .flen (.num 0)) (receiver frame1)).pending.head? ≠ some .reset ∧
    (receiver frame1).isWritten .appkey = true ∧ ((receiver frame1).buffer .fbuf).read 14 ≠ none :=
  ⟨_, rfl, by decide, by decide, by decide⟩

theorem witness_KeysAndParametersKeepTheirValues : ∃ t,
    step (doing (.wr .appkey (.str (List.replicate 16 7))) State.reset) = .next t ∧ t.appkey ≠ State.reset.appkey :=
  ⟨_, rfl, by decide⟩

theorem witness_RegisterWriteStoresTheValue : ∀ p ∈ [(RegName.appkey, HostValue.str (ramp 16)), (.nwkkey, .str (ramp 16)),
      (.devaddr, .str (ramp 4)), (.fcnt, .num 65535), (.fctrl, .num 255), (.fport, .num 0), (.plen, .num 255),
      (.flen, .num 255)],
    p.1 ≠ .cmd ∧ p.1.hostWritable = true ∧ p.2.fits p.1 = true := by decide

theorem witness_BufferByteWriteIsLocal : (254 ≤ 254 ∧ 255 < 256) ∧ 255 ≤ 255 := by decide

theorem witness_ReadsHaveNoSideEffects :
    (∃ t, (∃ r, HostAccess.rd .flen = .rd r) ∧ perform (.rd .flen) (receiver frame1) = .next t) ∧
    ∃ t, (∃ b k, HostAccess.rdb .fbuf 14 = .rdb b k) ∧ perform (.rdb .fbuf 14) (receiver frame1) = .next t :=
  ⟨⟨_, ⟨_, rfl⟩, rfl⟩, ⟨_, ⟨_, _, rfl⟩, rfl⟩⟩

theorem witness_MemWriteThenMemRead : 252 < 253 ∧ 253 + (hi.length : Nat) ≤ 255 := by decide

/-- A register map: the registers first, then the two buffers interleaved. -/
def sampleAddr : Port → Nat
  | .reg .appkey => 0
  | .reg .nwkkey => 1
  | .reg .devaddr => 2
  | .reg .fcnt => 3
  | .reg .fctrl => 4
  | .reg .fport => 5
  | .reg .plen => 6
  | .reg .flen => 7
  | .reg .cmd => 8
  | .reg .status => 9
  | .byte .pbuf k => 10 + 2 * k
  | .byte .fbuf k => 11 + 2 * k

theorem sampleAddr_injective : ∀ p ∈ Port.all, ∀ q ∈ Port.all, sampleAddr p = sampleAddr q → p = q := by
  intro p _ q _ h
  rcases p with r | ⟨b, k⟩ <;> rcases q with r' | ⟨b', k'⟩
  · cases r <;> cases r' <;> first | rfl | exact absurd h (by decide)
  · cases r <;> cases b' <;> simp only [sampleAddr] at h <;> omega
  · cases b <;> cases r' <;> simp only [sampleAddr] at h <;> omega
  · cases b <;> cases b' <;> simp only [sampleAddr] at h <;> first | omega | (congr; omega)

theorem witness_BusAddressNamesOnePlace : ∃ _ : RegMap, Port.byte .fbuf 254 ∈ Port.all ∧ Port.reg .status ∈ Port.all :=
  ⟨⟨sampleAddr, sampleAddr_injective⟩, by simp [Port.all], by simp [Port.all]⟩

theorem witness_AuthBlockByteByByte : (255 ≤ 255) ∧ 255 < 256 := by decide

theorem witness_CounterBlocksRepeatOnlyForEqualOperands : (13 : Fin 16).val < 14 := by decide

theorem witness_StreamByteByByte : ∀ j ∈ [0, 15, 16, 32], j < (ramp 33).length := by decide

theorem witness_StreamNeverWrapsTheIndex : 242 ≤ 242 ∧
    (16 * 65536 ≤ 16 * 65536 ∧ 65535 < ceilBlocks (16 * 65536) ∧ 0 < ceilBlocks (16 * 65536)) ∧
    (∃ buf : Bytes, buf.length ≤ 16 * 65536) ∧ ∃ buf : Bytes, 16 * 65536 < buf.length :=
  ⟨by decide, by decide, ⟨[], by decide⟩, ⟨List.replicate (16 * 65536 + 1) 0, by rw [List.length_replicate]; decide⟩⟩

theorem witness_SboxIsItsFormula : gfMul 0x53 0xCA = 1 ∧ (0xFF : Byte) ≠ 0 := by decide

theorem witness_RoundStepsFollowTheirTables : 3 < 4 := by decide

theorem witness_KeyScheduleFollowsItsRecurrence : (1 ≤ 9 ∧ 9 < 10) ∧ 3 < 4 ∧ (4 ≤ 43 ∧ 43 < 44) ∧ 10 ≤ 10 := by decide

/-- A full last block, a last block of one byte, and the empty string. -/
theorem witness_MacIsTheChainOverItsBlocks : ∀ p ∈ [([zeroBlock], ramp 16), ([zeroBlock], ramp 1), ([], [])],
    p.2.length ≤ 16 ∧ (p.2 = [] → p.1 = []) := by decide

theorem witness_LastMacBlockOfTheCodec : (∀ n ∈ [0, 7, 242], (ramp (25 + n)).length = 25 + n) ∧ 7 % 16 = 7 ∧
    242 % 16 ≠ 7 := ⟨by simp [ramp], by decide, by decide⟩

theorem witness_TagcmpDecidesEqualityInFixedWork : (ramp 4).length = tagLength .four ∧ (ramp 8).length = tagLength .eight := by
  decide

/-- Two frames of one length with the same first byte, and two senders of one length; the endings of the second clause. -/
theorem witness_TraceShowsOnlyLengthMarkerAndVerdict :
    (decodeOperands (receiver frame1)).isSome = true ∧ (decodeOperands (receiver frame7)).isSome = true ∧
    (receiver frame1).status.fault = none ∧ (receiver frame7).status.fault = none ∧
    (receiver frame1).flen = (receiver frame7).flen ∧
    ((receiver frame1).fbuf.read 0 = some (receiver frame1).config.marker ↔
      (receiver frame7).fbuf.read 0 = some (receiver frame7).config.marker) ∧
    (∀ e, (CommandResult.error .authenticationFailed) = .error e → e = .authenticationFailed) ∧
    (encodeOperands (sender 2 hi)).isSome = true ∧ (encodeOperands (sender 2 (ramp 2))).isSome = true ∧
    (sender 2 hi).plen = (sender 2 (ramp 2)).plen :=
  ⟨by decide, by decide, rfl, rfl, rfl, by decide, by simp, by decide, by decide, rfl⟩

theorem witness_CipherCallCounts : (sender 2 hi).status.fault = none ∧ (encodeOperands (sender 2 hi)).isSome = true ∧
    (receiver frame1).status.fault = none ∧ (decodeOperands (receiver frame1)).isSome = true := by decide

end Sys2Proof.Tests
end

section
/-! Proofs of the statements of 00_scope.md: MemRead after MemWrite (R15), what keeps its value over a step (R9, R25), and
two engines with the same parameters and keys (R11, R200, R244). -/

namespace Sys2Proof.Proofs

open Sys2Proof.Machine Sys2Proof.Laws

/-! ### MemWrite (R15) -/

/-- A byte outside the range of a MemWrite keeps its value (R15). -/
theorem read_writeBytes_outside {m : Memory} {off a : Nat} {b : Bytes} (h : a < off ∨ off + b.length ≤ a) :
    (m.writeBytes off b).read a = m.read a := by
  rw [read_writeBytes, dif_neg (by omega)]

/-- Settles O37: the bytes of the range are those written, and a byte outside it is not touched. -/
theorem memWriteThenMemRead : Obligations.MemWriteThenMemRead := fun m off b =>
  ⟨readBytes_writeBytes m off b, fun _ h => read_writeBytes_outside h⟩

/-! ### The parameters and the keys over a step (R9, R25) -/

/-- `t` has the parameters and the two keys of `s`. -/
structure SameKeys (s t : State) : Prop where
  config : t.config = s.config
  appkey : t.appkey = s.appkey
  nwkkey : t.nwkkey = s.nwkkey

/-- No command writes a key or a parameter (R40). -/
theorem exec_sameKeys {i : Instr} {s t : State} (h : exec i s = .next t) : SameKeys s t := by
  rcases exec_cases h with ⟨-, rfl⟩ | ⟨-, rfl | ⟨e, rfl⟩ | ⟨f, -, rfl⟩ | ⟨x, -, rfl⟩⟩ <;> exact ⟨rfl, rfl, rfl⟩

/-- Nor does any other write of CMD (R218, R221). -/
theorem command_sameKeys {w : Byte} {s t : State} (h : command w s = .next t) : SameKeys s t := by
  rcases command_cases w s with ⟨-, hc⟩ | ⟨-, -, hc⟩ | ⟨-, i, -, hc⟩
  · obtain rfl := Host.Outcome.next.inj (hc.symm.trans h)
    exact ⟨rfl, rfl, rfl⟩
  · obtain rfl := Host.Outcome.next.inj (hc.symm.trans h)
    exact ⟨rfl, rfl, rfl⟩
  · exact exec_sameKeys (hc.symm.trans h)

/-- An action of the host after which the parameters or a key are not as before is RESET or a write of a key. -/
theorem perform_sameKeys {a : HostAccess} {s t : State} (h : perform a s = .next t) :
    SameKeys s t ∨ (a = .reset ∧ t.config = s.config) ∨
    (∃ v, a = .wr .appkey v ∧ t.config = s.config ∧ t.nwkkey = s.nwkkey) ∨
    (∃ v, a = .wr .nwkkey v ∧ t.config = s.config ∧ t.appkey = s.appkey) := by
  rcases perform_cases h with ⟨n, -, -, hc⟩ | ⟨r, v, ha, hs⟩ | ⟨v, -, rfl⟩ | ⟨b, k, v, -, -, -, rfl⟩ | ⟨ha, rfl⟩
  · exact .inl (command_sameKeys hc)
  · cases hs with
    | appkey => exact .inr (.inr (.inl ⟨_, ha, rfl, rfl⟩))
    | nwkkey => exact .inr (.inr (.inr ⟨_, ha, rfl, rfl⟩))
    | _ => exact .inl ⟨rfl, rfl, rfl⟩
  · exact .inl ⟨rfl, rfl, rfl⟩
  · cases b <;> exact .inl ⟨rfl, rfl, rfl⟩
  · exact .inr (.inl ⟨ha, rfl⟩)

/-- Settles O32: a step is idle or performs one action of the host, and only RESET and the writes of the two keys are
actions that reach a key. -/
theorem keysAndParametersKeepTheirValues : Obligations.KeysAndParametersKeepTheirValues := by
  intro s t h
  rcases step_cases h with ⟨-, rfl⟩ | ⟨a, rest, hp, ha⟩
  · simp
  · rw [hp, List.head?_cons]
    rcases perform_sameKeys ha with hk | ⟨rfl, hc⟩ | ⟨v, rfl, hc, hn⟩ | ⟨v, rfl, hc, hk⟩
    · exact ⟨hk.config, fun h => absurd hk.appkey h, fun h => absurd hk.nwkkey h⟩
    · exact ⟨hc, fun _ => .inl rfl, fun _ => .inl rfl⟩
    · exact ⟨hc, fun _ => .inr ⟨v, rfl⟩, fun h => absurd hn h⟩
    · exact ⟨hc, fun h => absurd hk h, fun _ => .inr ⟨v, rfl⟩⟩

/-! ### The codec: a frame that was sealed opens to what was sealed (R200) -/

/-- STREAM undoes itself, for every cipher: both passes use the same keystream (R132). -/
theorem stream_stream (E : Key128 → Block128 → Block128) (K : Key128) (d : Direction) (dev : DevAddr) (fcnt : Half)
    (buf : Bytes) : stream E K d dev fcnt (stream E K d dev fcnt buf) = buf := by
  apply List.ext_getElem
  · simp
  · intro j h₁ h₂
    rw [stream_getElem, stream_getElem, BitVec.xor_assoc, BitVec.xor_self, BitVec.xor_zero]

/-- The header and the ciphertext of a frame: the message its tag is made over (R185, R187). -/
def sealedMessage (cfg : Config) (d : Direction) (ka : Key128) (h : Header) (p : Bytes) : Bytes :=
  headerBytes cfg.marker h ++ stream (blockCipher cfg.cipher) ka d h.dev h.fcnt p

/-- What a DECODE of the frame of this header and payload reports (R197). -/
def openedOf (h : Header) (p : Bytes) : Opened :=
  { fctrl := h.fctrl, fport := h.fport, fcnt := h.fcnt, payload := p }

section SealedFrame

variable (cfg : Config) (d : Direction) (ka kn : Key128) (h : Header) (p : Bytes)

theorem sealFrame_eq_message_append_tag : sealFrame cfg d ka kn h p =
    sealedMessage cfg d ka h p ++
      tag cfg kn d h.dev h.fcnt (headerLen + p.length) (sealedMessage cfg d ka h p) := rfl

@[simp] theorem sealedMessage_length : (sealedMessage cfg d ka h p).length = headerLen + p.length := by
  simp [sealedMessage, headerLen]

/-- The place where DECODE cuts off the tag is the end of the message (R190). -/
theorem sealFrame_cut :
    (sealFrame cfg d ka kn h p).length - tagLength cfg.tagLen = (sealedMessage cfg d ka h p).length := by
  rw [sealFrame_length, sealedMessage_length, headerLen]
  omega

/-- DECODE finds the sender's address in the frame (R193). -/
theorem devAddrOf_sealFrame : devAddrOf ((sealFrame cfg d ka kn h p).drop 1) = h.dev := by
  ext k hk
  interval_cases k <;> rfl

/-- DECODE finds the sender's counter in the frame (R193). -/
theorem halfOf_sealFrame :
    halfOf ((sealFrame cfg d ka kn h p).getD 6 0) ((sealFrame cfg d ka kn h p).getD 7 0) = h.fcnt :=
  halfOf_lo8_hi8 h.fcnt

/-- The tag DECODE expects of a sealed frame is the tag it carries (R194). -/
theorem expectedTag_sealFrame : expectedTag cfg d kn (sealFrame cfg d ka kn h p) =
    (sealFrame cfg d ka kn h p).drop ((sealFrame cfg d ka kn h p).length - tagLength cfg.tagLen) := by
  rw [expectedTag, devAddrOf_sealFrame, halfOf_sealFrame, sealFrame_cut, sealFrame_eq_message_append_tag,
    List.take_left, List.drop_left, sealedMessage_length]

/-- The ciphertext DECODE decrypts is the one ENCODE made (R185, R190). -/
theorem ciphertext_sealFrame :
    ((sealFrame cfg d ka kn h p).drop 9).take ((sealFrame cfg d ka kn h p).length - 9 - tagLength cfg.tagLen) =
      stream (blockCipher cfg.cipher) ka d h.dev h.fcnt p := by
  have hl : (sealFrame cfg d ka kn h p).length - 9 - tagLength cfg.tagLen =
      (stream (blockCipher cfg.cipher) ka d h.dev h.fcnt p).length := by
    rw [sealFrame_length, stream_length]
    omega
  rw [hl, sealFrame_eq, List.append_assoc, List.drop_left' (headerBytes_length ..), List.take_left]

/-- What DECODE reports of a sealed frame is the sender's fields and payload (R197, R200). -/
theorem reported_sealFrame : reported cfg d ka (sealFrame cfg d ka kn h p) = openedOf h p := by
  rw [reported, ciphertext_sealFrame, devAddrOf_sealFrame, halfOf_sealFrame, stream_stream]
  rfl

/-- Under the same parameters, keys and direction a sealed frame passes all three checks of DECODE and opens to what was
sealed, whatever the cipher and the MAC mode are (R200). -/
theorem openFrame_sealFrame : openFrame cfg d ka kn (sealFrame cfg d ka kn h p) = .ok (openedOf h p) := by
  have hlen : ¬ (sealFrame cfg d ka kn h p).length < minFrame cfg.tagLen := by
    rw [sealFrame_length, minFrame, headerLen]
    omega
  have hmarker : ¬ (sealFrame cfg d ka kn h p).getD 0 0 ≠ cfg.marker := fun hne => hne rfl
  rw [openFrame_eq, if_neg hlen, if_neg hmarker, if_pos (expectedTag_sealFrame ..), reported_sealFrame]

end SealedFrame

/-! ### The two commands, from register to register -/

theorem runOf_encodeInstr (d : Direction) (s : State) : runOf (encodeInstr d) s = encodeRunT d s := by
  cases d <;> rfl

theorem runOf_decodeInstr (d : Direction) (s : State) : runOf (decodeInstr d) s = decodeRunT d s := by
  cases d <;> rfl

/-- An ENCODE that ends in OK had its whole required set, a payload that is not too large, and wrote its frame (R185). -/
theorem exec_encode_ok {d : Direction} {s t : State} (hf : s.status.fault = none)
    (h : exec (encodeInstr d) s = .next t) (ht : t.status = { fault := none, code := .ok }) :
    ∃ o, encodeOperands s = some o ∧ o.plen ≤ maxPayload s.config.tagLen ∧
      t = writeFrame (sealFrame s.config d o.appkey o.nwkkey o.header o.payload) s := by
  rw [exec_eq, runOf_encodeInstr] at h
  obtain rfl := Host.Outcome.next.inj h
  rcases encodeRunT_val d s with ⟨hne, -⟩ | ⟨-, -, hr⟩ | ⟨-, o, ho, ⟨-, hr⟩ | ⟨hn, hr⟩⟩
  · exact absurd hf hne
  · rw [hr] at ht
    exact absurd (congrArg Status.fault ht) (Option.some_ne_none _)
  · rw [hr] at ht
    exact absurd (congrArg Status.code ht) Code.noConfusion
  · exact ⟨o, ho, hn, by rw [hr]; rfl⟩

/-- The payload of an ENCODE that is not too large is `PBUF[0..PLEN)` (R219). -/
theorem readBytes_payload {s : State} {o : EncodeOperands} (ho : encodeOperands s = some o)
    (hn : o.plen ≤ maxPayload s.config.tagLen) :
    s.pbuf.readBytes 0 o.plen = some o.payload := by
  obtain ⟨-, -, -, -, -, -, -, hp⟩ := (encodeOperands_eq_some s o).1 ho
  rwa [payloadOperand, if_pos hn] at hp

/-- A frame ENCODE makes fits FBUF, so that FLEN holds its length (R184). -/
theorem sealFrame_length_le {cfg : Config} (d : Direction) (ka kn : Key128) (h : Header) {p : Bytes}
    (hp : p.length ≤ maxPayload cfg.tagLen) : (sealFrame cfg d ka kn h p).length ≤ 255 := by
  have := tagLength_le cfg.tagLen
  rw [maxPayload, headerLen] at hp
  rw [sealFrame_length]
  omega

/-- A byte string of at most 255 bytes that stands in FBUF, with its length in FLEN, is what DECODE reads (R190). -/
theorem decodeOperands_of_wire {r : State} {ka kn : Key128} {f : Bytes} (ha : r.appkey = some ka)
    (hn : r.nwkkey = some kn) (hl : r.flen = some (BitVec.ofNat 8 f.length)) (hf : f.length ≤ 255)
    (hb : r.fbuf.readBytes 0 f.length = some f) :
    decodeOperands r = some { appkey := ka, nwkkey := kn, wire := f } := by
  refine (decodeOperands_eq_some _ _).2 ⟨ha, hn, _, hl, ?_⟩
  rwa [BitVec.toNat_ofNat, Nat.mod_eq_of_lt (by omega)]

/-- A DECODE whose frame opens writes what was found (R197). -/
theorem exec_decode_opened {d : Direction} {r : State} {o : DecodeOperands} {x : Opened} (hf : r.status.fault = none)
    (ho : decodeOperands r = some o) (hx : openFrame r.config d o.appkey o.nwkkey o.wire = .ok x) :
    exec (decodeInstr d) r = .next (writeOpened x r) := by
  rw [exec_eq, runOf_decodeInstr, decodeRunT_val_of_some hf ho, hx]
  rfl

/-- In a buffer into which a payload was written from offset 0 on, the payload's bytes are those of any buffer the payload
was read from. -/
theorem read_writeBytes_of_readBytes {m m' : Memory} {n k : Nat} {p : Bytes} (hp : m.readBytes 0 n = some p)
    (hk : k < n) : (m'.writeBytes 0 p).read k = m.read k := by
  obtain ⟨rfl, hread⟩ := (readBytes_eq_some m 0 n p).1 hp
  have hm := hread k hk
  rw [Nat.zero_add] at hm
  rw [read_writeBytes, dif_pos ⟨Nat.zero_le k, hk⟩, hm]
  rfl

/-- Settles O19: the receiver reads the sender's frame whole, the frame opens to what the sender sealed, and DECODE writes
just that. -/
theorem twoEnginesWithTheSameKeysInteroperate : Obligations.TwoEnginesWithTheSameKeysInteroperate := by
  intro d s t r hs hexec hok hr hcfg hka hkn hflen hfbuf
  obtain ⟨o, ho, hmax, rfl⟩ := exec_encode_ok hs hexec hok
  obtain ⟨hoka, hokn, -, hfcnt, hfctrl, hfport, ⟨n, hplen, hon⟩, -⟩ := (encodeOperands_eq_some s o).1 ho
  have hpay := readBytes_payload ho hmax
  have hlen := payload_length ho hmax
  set f := sealFrame s.config d o.appkey o.nwkkey o.header o.payload
  have hf : f.length ≤ 255 := sealFrame_length_le d _ _ _ (hlen ▸ hmax)
  have hbytes : r.fbuf.readBytes 0 f.length = some f := by
    rw [← readBytes_writeBytes s.fbuf 0 f]
    refine readBytes_congr fun k hk => ?_
    rw [Nat.zero_add]
    refine hfbuf _ rfl k ?_
    rwa [BitVec.toNat_ofNat, Nat.mod_eq_of_lt (by omega)]
  have hwire := decodeOperands_of_wire (hka.trans hoka) (hkn.trans hokn) hflen hf hbytes
  have hopen : openFrame r.config d o.appkey o.nwkkey f = .ok (openedOf o.header o.payload) := by
    rw [hcfg]
    exact openFrame_sealFrame ..
  refine ⟨_, exec_decode_opened hr hwire hopen, ?_, hfctrl.symm, hfport.symm, hfcnt.symm, ?_, rfl, ?_⟩
  · rw [writeOpened_status, Status.withCode, hr]
  · rw [writeOpened_plen, hplen, openedOf, hlen, hon, BitVec.ofNat_toNat, BitVec.setWidth_eq]
  · intro n' hn' k hk
    obtain rfl := Option.some.inj (hplen.symm.trans hn')
    exact read_writeBytes_of_readBytes hpay (hon ▸ hk)

end Sys2Proof.Proofs
end

section
/-! Proofs of the statements of 10_state.md: the step and the command it runs (R32, R33), RESET (R39), what is written and
what stays unwritten (R22), the reads and writes of registers (R23, R24, R54, R56), and the frame of DECODE (R40, R197). -/

namespace Sys2Proof.Proofs

open Sys2Proof.Machine Sys2Proof.Laws

/-! ### The frame of DECODE (R40, R197) -/

/-- Everything a DECODE can do (R190, R214): nothing while FAULT is 1, the fault of an unwritten operand, its error, or its
results. -/
theorem exec_decode_cases {d : Direction} {s t : State} (h : exec (decodeInstr d) s = .next t) :
    (s.status.fault ≠ none ∧ t = s) ∨
    (s.status.fault = none ∧ decodeOperands s = none ∧ t = takeFault .unwrittenOperand s) ∨
    (s.status.fault = none ∧ ∃ o, decodeOperands s = some o ∧
      ((∃ e, openFrame s.config d o.appkey o.nwkkey o.wire = .error e ∧ t = raiseError e s) ∨
       (∃ x, openFrame s.config d o.appkey o.nwkkey o.wire = .ok x ∧ t = writeOpened x s))) := by
  rw [exec_eq, runOf_decodeInstr] at h
  obtain rfl := Host.Outcome.next.inj h
  rcases decodeRunT_val d s with ⟨hf, hr⟩ | ⟨hf, ho, hr⟩ | ⟨hf, o, ho, ⟨e, hx, hr⟩ | ⟨x, hx, hr⟩⟩ <;> rw [hr]
  · exact .inl ⟨hf, rfl⟩
  · exact .inr (.inl ⟨hf, ho, rfl⟩)
  · exact .inr (.inr ⟨hf, o, ho, .inl ⟨e, hx, rfl⟩⟩)
  · exact .inr (.inr ⟨hf, o, ho, .inr ⟨x, hx, rfl⟩⟩)

/-- The payload a DECODE reports has `FLEN − 9 − TAG_LEN` bytes (R190). -/
theorem opened_payload_length_of_flen {d : Direction} {s : State} {o : DecodeOperands} {x : Opened} {l : Byte}
    (ho : decodeOperands s = some o) (hx : openFrame s.config d o.appkey o.nwkkey o.wire = .ok x)
    (hl : s.flen = some l) : x.payload.length = l.toNat - 9 - tagLength s.config.tagLen := by
  obtain ⟨l', hl', hw⟩ := wire_length ho
  obtain rfl := Option.some.inj (hl.symm.trans hl')
  rw [(opened_payload_length hx).2, hw]

/-- Settles O15: of the endings of DECODE only the one with results writes anything but STATUS, and it writes as many
bytes of PBUF as its payload has. -/
theorem decodeLeavesEverythingElse : Obligations.DecodeLeavesEverythingElse := by
  intro d s t h
  rcases exec_decode_cases h with ⟨-, rfl⟩ | ⟨hf, -, rfl⟩ | ⟨hf, o, ho, ⟨e, -, rfl⟩ | ⟨x, hx, rfl⟩⟩
  · simp
  · simp [hf]
  · simp
  · have hpbuf : ∀ l : Byte, s.flen = some l → ∀ a, l.toNat - 9 - tagLength s.config.tagLen ≤ a →
        (writeOpened x s).pbuf.read a = s.pbuf.read a := fun l hl a ha =>
      read_writeBytes_outside (.inr (by rw [opened_payload_length_of_flen ho hx hl, Nat.zero_add]; exact ha))
    have hended : ¬ (s.status.fault ≠ none ∨ (writeOpened x s).status.fault ≠ none ∨
        (writeOpened x s).status.code ≠ .ok) := by simp [hf]
    exact ⟨rfl, rfl, rfl, rfl, rfl, rfl, rfl, rfl, .inl rfl, hpbuf, fun hn => absurd hn hended⟩

/-! ### What is written stays written (R22) -/

/-- Every register and buffer byte that is written in `s` is written in `t`. -/
structure KeepsWritten (s t : State) : Prop where
  reg : ∀ r, s.isWritten r = true → t.isWritten r = true
  byte : ∀ b k, (s.buffer b).read k ≠ none → (t.buffer b).read k ≠ none

theorem KeepsWritten.refl (s : State) : KeepsWritten s s := ⟨fun _ h => h, fun _ _ h => h⟩

/-- STATUS and what the host has read are no part of what is written (R22, R35). -/
theorem setStatus_keepsWritten (s : State) (st : Status) (answers : List HostValue) :
    KeepsWritten s { s with status := st, received := answers } :=
  ⟨fun _ h => h, fun _ _ h => h⟩

/-- A buffer byte that is written stays so when a byte is written. -/
theorem read_write_ne_none {m : Memory} {k : Nat} (a : Nat) (v : Byte) (h : m.read k ≠ none) :
    (m.write a v).read k ≠ none := by
  rw [read_write]
  split
  · exact Option.some_ne_none v
  · exact h

/-- A buffer byte that is written stays so when a byte string is written. -/
theorem read_writeBytes_ne_none {m : Memory} {k : Nat} (off : Nat) (bs : Bytes) (h : m.read k ≠ none) :
    (m.writeBytes off bs).read k ≠ none := by
  rw [read_writeBytes]
  split
  · exact Option.some_ne_none _
  · exact h

theorem writeFrame_keepsWritten (f : Bytes) (s : State) : KeepsWritten s (writeFrame f s) where
  reg r h := by
    cases r with
    | flen => rfl
    | _ => exact h
  byte b _ h := by
    cases b with
    | pbuf => exact h
    | fbuf => exact read_writeBytes_ne_none 0 f h

theorem writeOpened_keepsWritten (x : Opened) (s : State) : KeepsWritten s (writeOpened x s) where
  reg r h := by
    cases r with
    | plen | fcnt | fctrl | fport => rfl
    | _ => exact h
  byte b _ h := by
    cases b with
    | pbuf => exact read_writeBytes_ne_none 0 x.payload h
    | fbuf => exact h

/-- No ending of a command unwrites anything (R40). -/
theorem exec_keepsWritten {i : Instr} {s t : State} (h : exec i s = .next t) : KeepsWritten s t := by
  rcases exec_cases h with ⟨-, rfl⟩ | ⟨-, rfl | ⟨e, rfl⟩ | ⟨f, -, rfl⟩ | ⟨x, -, rfl⟩⟩
  · exact .refl _
  · exact setStatus_keepsWritten s _ _
  · exact setStatus_keepsWritten s _ _
  · exact writeFrame_keepsWritten f s
  · exact writeOpened_keepsWritten x s

theorem command_keepsWritten {w : Byte} {s t : State} (h : command w s = .next t) : KeepsWritten s t := by
  rcases command_cases w s with ⟨-, hc⟩ | ⟨-, -, hc⟩ | ⟨-, i, -, hc⟩
  · obtain rfl := Host.Outcome.next.inj (hc.symm.trans h)
    exact .refl _
  · obtain rfl := Host.Outcome.next.inj (hc.symm.trans h)
    exact setStatus_keepsWritten s _ _
  · exact exec_keepsWritten (hc.symm.trans h)

/-- A register write makes its register written (R22). -/
theorem stores_isWritten {s t : State} {r : RegName} {v : HostValue} (h : Stores s r v t) : t.isWritten r = true := by
  cases h <;> rfl

/-- A register write leaves every other register written or unwritten, as it was (R56). -/
theorem stores_isWritten_of_ne {s t : State} {r q : RegName} {v : HostValue} (h : Stores s r v t) (hq : q ≠ r) :
    t.isWritten q = s.isWritten q := by
  cases h <;> cases q <;> trivial

/-- A register write leaves both buffers and STATUS (R56). -/
theorem stores_buffers_status {s t : State} {r : RegName} {v : HostValue} (h : Stores s r v t) :
    t.pbuf = s.pbuf ∧ t.fbuf = s.fbuf ∧ t.status = s.status := by
  cases h <;> exact ⟨rfl, rfl, rfl⟩

theorem stores_keepsWritten {s t : State} {r : RegName} {v : HostValue} (h : Stores s r v t) : KeepsWritten s t where
  reg q hq := by
    by_cases hqr : q = r
    · exact hqr ▸ stores_isWritten h
    · exact (stores_isWritten_of_ne h hqr).trans hq
  byte b k hk := by
    obtain ⟨hpbuf, hfbuf, -⟩ := stores_buffers_status h
    cases b with
    | pbuf => exact (congrArg (Memory.read · k) hpbuf).trans_ne hk
    | fbuf => exact (congrArg (Memory.read · k) hfbuf).trans_ne hk

theorem setBuffer_write_keepsWritten (s : State) (b : BufName) (k : Nat) (v : Byte) :
    KeepsWritten s (s.setBuffer b ((s.buffer b).write k v)) where
  reg r h := by cases b <;> exact h
  byte b' _ h := by
    cases b <;> cases b'
    case pbuf.pbuf | fbuf.fbuf => exact read_write_ne_none k v h
    case pbuf.fbuf | fbuf.pbuf => exact h

/-- No action of the host but RESET unwrites anything. -/
theorem perform_keepsWritten {a : HostAccess} {s t : State} (ha : a ≠ .reset) (h : perform a s = .next t) :
    KeepsWritten s t := by
  rcases perform_cases h with ⟨n, -, -, hc⟩ | ⟨r, v, -, hs⟩ | ⟨v, -, rfl⟩ | ⟨b, k, v, -, -, -, rfl⟩ | ⟨hr, -⟩
  · exact command_keepsWritten hc
  · exact stores_keepsWritten hs
  · exact setStatus_keepsWritten s _ _
  · exact setBuffer_write_keepsWritten s b k _
  · exact absurd hr ha

/-- Settles O31: a step is idle or performs one action of the host, and every action but RESET keeps what is written. -/
theorem onlyResetUnwrites : Obligations.OnlyResetUnwrites := by
  intro s t h hreset
  rcases step_cases h with ⟨-, rfl⟩ | ⟨a, rest, hp, ha⟩
  · exact ⟨fun _ h => h, fun _ _ h => h⟩
  · have hne : a ≠ .reset := by
      rintro rfl
      exact hreset (by rw [hp, List.head?_cons])
    obtain ⟨hreg, hbyte⟩ := perform_keepsWritten hne ha
    exact ⟨hreg, hbyte⟩

/-! ### Register writes (R23, R24, R54, R56) -/

/-- A write of a register other than CMD that the host may write, with a value of its form, is one that stores (R54). -/
theorem stores_of_fits (s : State) {r : RegName} {v : HostValue} (hcmd : r ≠ .cmd) (hw : r.hostWritable = true)
    (hfits : v.fits r = true) : ∃ t, Stores s r v t := by
  cases v with
  | num n =>
    cases r with
    | fcnt => exact ⟨_, .fcnt n (of_decide_eq_true hfits)⟩
    | fctrl => exact ⟨_, .fctrl n (of_decide_eq_true hfits)⟩
    | fport => exact ⟨_, .fport n (of_decide_eq_true hfits)⟩
    | plen => exact ⟨_, .plen n (of_decide_eq_true hfits)⟩
    | flen => exact ⟨_, .flen n (of_decide_eq_true hfits)⟩
    | cmd => exact absurd rfl hcmd
    | status => exact absurd hw Bool.false_ne_true
    | appkey | nwkkey | devaddr => exact absurd hfits Bool.false_ne_true
  | str bs =>
    cases r with
    | appkey => exact ⟨_, .appkey bs (of_decide_eq_true hfits)⟩
    | nwkkey => exact ⟨_, .nwkkey bs (of_decide_eq_true hfits)⟩
    | devaddr => exact ⟨_, .devaddr bs (of_decide_eq_true hfits)⟩
    | _ => exact absurd hfits Bool.false_ne_true

/-- What a register write stores is what performing it answers: the converse of `perform_cases` for these writes. -/
theorem perform_wr_of_stores {s t : State} {r : RegName} {v : HostValue} (h : Stores s r v t) :
    perform (.wr r v) s = .next t := by
  cases h with
  | _ _ hv => exact if_pos hv

/-- A register that the host can read answers the value it was last written (R54). -/
theorem readRegister_of_stores {s t : State} {r : RegName} {v : HostValue} (h : Stores s r v t)
    (hr : r.hostReadable = true) : readRegister r t = .ok v := by
  cases h with
  | appkey | nwkkey => exact absurd hr Bool.false_ne_true
  | devaddr bs hbs => simp only [readRegister, toList_devAddrOf bs hbs]
  | fcnt n hn | fctrl n hn | fport n hn | plen n hn | flen n hn =>
    simp only [readRegister, readNumber, BitVec.toNat_ofNat, Nat.mod_eq_of_lt hn]

/-- Every register but the one that is written reads as before (R56). -/
theorem readRegister_of_stores_of_ne {s t : State} {r q : RegName} {v : HostValue} (h : Stores s r v t) (hq : q ≠ r) :
    readRegister q t = readRegister q s := by
  cases h <;> cases q <;> trivial

/-- A write of a register other than APPKEY leaves APPKEY. -/
theorem stores_appkey_of_ne {s t : State} {r : RegName} {v : HostValue} (h : Stores s r v t) (hr : r ≠ .appkey) :
    t.appkey = s.appkey := by
  cases h <;> trivial

/-- A write of a register other than NWKKEY leaves NWKKEY. -/
theorem stores_nwkkey_of_ne {s t : State} {r : RegName} {v : HostValue} (h : Stores s r v t) (hr : r ≠ .nwkkey) :
    t.nwkkey = s.nwkkey := by
  cases h <;> trivial

/-- APPKEY holds the bytes it was written with, index 0 first (R23). -/
theorem toList_appkey_of_stores {s t : State} {bs : Bytes} (h : Stores s .appkey (.str bs) t) :
    t.appkey.map Vector.toList = some bs := by
  cases h with
  | appkey _ hbs => exact congrArg some (toList_blockOf bs hbs)

/-- NWKKEY holds the bytes it was written with, index 0 first (R24). -/
theorem toList_nwkkey_of_stores {s t : State} {bs : Bytes} (h : Stores s .nwkkey (.str bs) t) :
    t.nwkkey.map Vector.toList = some bs := by
  cases h with
  | nwkkey _ hbs => exact congrArg some (toList_blockOf bs hbs)

/-- Settles O34: the write is one of those that store, and each of them writes its one register. -/
theorem registerWriteStoresTheValue : Obligations.RegisterWriteStoresTheValue := by
  intro s r v hcmd hw hfits
  obtain ⟨t, h⟩ := stores_of_fits s hcmd hw hfits
  obtain ⟨hpbuf, hfbuf, hstatus⟩ := stores_buffers_status h
  refine ⟨t, perform_wr_of_stores h, stores_isWritten h, readRegister_of_stores h,
    fun q => readRegister_of_stores_of_ne h, hpbuf, hfbuf, hstatus, stores_appkey_of_ne h, stores_nwkkey_of_ne h, ?_, ?_⟩
  · rintro bs rfl rfl
    exact toList_appkey_of_stores h
  · rintro bs rfl rfl
    exact toList_nwkkey_of_stores h

/-! ### The step and the command it runs (R32, R33, R60) -/

/-- A step performs the host's next action, in the state in which it is no longer pending (R33, R60). -/
theorem step_of_pending {s : State} {a : HostAccess} {rest : List HostAccess} (h : s.pending = a :: rest) :
    step s = perform a { s with pending := rest } := by
  rw [step, stepHost, h]

/-- With no action pending the engine is idle (R228). -/
theorem step_of_pending_nil {s : State} (h : s.pending = []) : step s = .next s := by
  rw [step, stepHost, h]

/-- A write of a word that decodes runs its command; while FAULT is 1 both do nothing (R214, R221). -/
theorem command_of_decode {w : Byte} {i : Instr} (s : State) (h : decode w = .ok i) : command w s = exec i s := by
  rcases command_cases w s with ⟨hf, hc⟩ | ⟨-, ⟨e, he⟩, -⟩ | ⟨-, j, hj, hc⟩
  · rw [hc, exec_eq, runOf_faulted i hf, commit]
  · exact absurd (he.symm.trans h) nofun
  · obtain rfl := Except.ok.inj (hj.symm.trans h)
    exact hc

/-- A step whose next action writes a word of 8 bits to CMD is `command` of that word (R32). -/
theorem step_of_pending_cmd {s : State} {n : Nat} {rest : List HostAccess} (h : s.pending = .wr .cmd (.num n) :: rest)
    (hn : n < 256) : step s = command (BitVec.ofNat 8 n) { s with pending := rest } :=
  (step_of_pending h).trans (if_pos hn)

theorem tableWord_of_lt {w : Nat} (hw : w < 256) : tableWord 8 w = w := Nat.mod_eq_of_lt hw

/-- A word of the opcode table that stands for a command is, as a byte, the word of that command (R83). -/
theorem decode_of_decodeTableWord {w : Nat} {i : Instr} (hw : w < 256) (h : decodeTableWord 8 w = some i) :
    decode (BitVec.ofNat 8 w) = .ok i := by
  simp only [decodeTableWord, tableWord_of_lt hw, if_pos hw] at h
  split at h
  · rename_i j hj
    rw [hj, Option.some.inj h]
  · exact absurd h (Option.some_ne_none i).symm

theorem command_ne_fault (w : Byte) (s : State) (f : Fault) : command w s ≠ .fault f := by
  obtain ⟨t, ht⟩ := command_next w s
  rw [ht]
  nofun

/-- A register write stores, is refused, or is a write of CMD. -/
theorem hostWrite_ne_fault (r : RegName) (v : HostValue) (s : State) (f : Fault) : hostWrite r v s ≠ .fault f := by
  unfold hostWrite
  split <;> try split
  case h_1.isTrue => exact command_ne_fault _ s f
  all_goals nofun

theorem hostWriteByte_ne_fault (b : BufName) (k v : Nat) (s : State) (f : Fault) :
    hostWriteByte b k v s ≠ .fault f := by
  unfold hostWriteByte
  split
  · split <;> nofun
  · nofun

theorem answer_ne_fault (r : Except Refusal HostValue) (s : State) (f : Fault) : answer r s ≠ .fault f := by
  cases r <;> nofun

/-- No action of the host answers a fault outcome: a fault is taken as a next state (R218; log 7). -/
theorem perform_ne_fault (a : HostAccess) (s : State) (f : Fault) : perform a s ≠ .fault f := by
  cases a with
  | wr r v => exact hostWrite_ne_fault r v s f
  | rd r => exact answer_ne_fault _ s f
  | wrb b k v => exact hostWriteByte_ne_fault b k v s f
  | rdb b k => exact answer_ne_fault _ s f
  | reset => nofun

/-- Settles O5: a step performs the action that is next, a write of CMD is `command`, and a word that decodes is its
command. -/
theorem stepRunsTheDecodedCommand : Obligations.StepRunsTheDecodedCommand := by
  refine ⟨fun s n rest i hp hn hi => ?_, fun s w i hw hi => ?_, fun s => step_of_pending_nil, fun s f => ?_⟩
  · rw [step_of_pending_cmd hp hn, command_of_decode _ hi]
  · have hp : (s.withFetchWord 8 w).pending = .wr .cmd (.num w) :: s.pending := by
      rw [State.withFetchWord, placeCommand_pending, tableWord_of_lt hw]
    exact (step_of_pending_cmd hp hw).trans (command_of_decode s (decode_of_decodeTableWord hw hi))
  · cases hp : s.pending with
    | nil => exact step_of_pending_nil hp ▸ nofun
    | cons a rest => exact step_of_pending hp ▸ perform_ne_fault a _ f

/-- Settles O6: `exec` of a command commits the ending of its run, and the run of ENCODE and of DECODE in a direction is
the traced one. -/
theorem execCommitsTheTracedRun : Obligations.ExecCommitsTheTracedRun := fun d s =>
  ⟨by rw [exec_eq, runOf_encodeInstr], by rw [exec_eq, runOf_decodeInstr]⟩

/-! ### RESET (R39) -/

/-- Settles O29: both buffers are empty after reset. -/
theorem resetMeetsTheInvariant : Obligations.ResetMeetsTheInvariant := ⟨wf_nil, wf_nil⟩

/-- STATUS after reset is the byte 0x00 (R39, R85). -/
theorem toByte_none_idle : (Status.mk none .idle).toByte = 0x00 := by decide

/-- Settles O30: the step performs RESET, whose state is that of R39 with the parameters kept. -/
theorem resetEventGivesTheResetState : Obligations.ResetEventGivesTheResetState := fun s rest hp =>
  ⟨resetEvent { s with pending := rest }, step_of_pending hp, rfl, rfl, rfl, rfl, rfl, rfl, rfl, rfl, fun _ => rfl,
    fun _ => rfl, rfl, toByte_none_idle, rfl⟩

/-! ### Reads and the keys (R23, R24, R32) -/

/-- What a read of a register answers does not depend on the keys: no register that has a read path holds one. -/
theorem readRegister_setKeys (r : RegName) (s : State) (ka kn : Option Key128) :
    readRegister r { s with appkey := ka, nwkkey := kn } = readRegister r s := by
  cases r <;> rfl

/-- What a read of a buffer byte answers does not depend on the keys. -/
theorem readBufferByte_setKeys (b : BufName) (k : Nat) (s : State) (ka kn : Option Key128) :
    readBufferByte b k { s with appkey := ka, nwkkey := kn } = readBufferByte b k s := by
  cases b <;> rfl

/-- Settles O33: the reads of APPKEY, NWKKEY and CMD are refused by name, and every other read looks at another field. -/
theorem keysAreNeverReadBack : Obligations.KeysAreNeverReadBack :=
  ⟨fun _ => ⟨rfl, rfl, rfl⟩,
    fun s ka kn => ⟨fun r => readRegister_setKeys r s ka kn, fun b k => readBufferByte_setKeys b k s ka kn⟩⟩

end Sys2Proof.Proofs
end

section
/-! Proofs of the statements of 20_memory.md: the canonical form of the buffers (R50), the accesses of a buffer byte (R50,
R51), the reads of the host (R56) and the bus addresses (R59). -/

namespace Sys2Proof.Proofs

open Sys2Proof.Machine Sys2Proof.Laws

/-! ### The canonical form of the buffers over a step (R22, R50) -/

/-- The invariant looks at the two buffers only. -/
theorem inv_of_buffers_eq {s t : State} (hs : s.Inv) (hpbuf : t.pbuf = s.pbuf) (hfbuf : t.fbuf = s.fbuf) : t.Inv := by
  rwa [State.Inv, hpbuf, hfbuf]

theorem inv_buffer {s : State} (hs : s.Inv) (b : BufName) : (s.buffer b).wf = true := by
  cases b with
  | pbuf => exact hs.left
  | fbuf => exact hs.right

theorem inv_setBuffer {s : State} (hs : s.Inv) (b : BufName) {m : Memory} (hm : m.wf = true) : (s.setBuffer b m).Inv := by
  cases b with
  | pbuf => exact ⟨hm, hs.right⟩
  | fbuf => exact ⟨hs.left, hm⟩

/-- A frame of at most 255 bytes lies inside FBUF (R50, R206). -/
theorem inv_writeFrame {s : State} (hs : s.Inv) {f : Bytes} (hf : f.length ≤ 255) : (writeFrame f s).Inv :=
  ⟨hs.left, wf_writeBytes f ((Nat.zero_add _).trans_le hf) hs.right⟩

/-- A payload of at most 255 bytes lies inside PBUF (R50). -/
theorem inv_writeOpened {s : State} (hs : s.Inv) {x : Opened} (hx : x.payload.length ≤ 255) : (writeOpened x s).Inv :=
  ⟨wf_writeBytes x.payload ((Nat.zero_add _).trans_le hx) hs.left, hs.right⟩

/-- Every ending of a command keeps the invariant: what it stores in a buffer lies inside it (R40). -/
theorem exec_inv {i : Instr} {s t : State} (hs : s.Inv) (h : exec i s = .next t) : t.Inv := by
  rcases exec_cases h with ⟨-, rfl⟩ | ⟨-, rfl | ⟨e, rfl⟩ | ⟨f, hf, rfl⟩ | ⟨x, hx, rfl⟩⟩
  · exact hs
  · exact inv_of_buffers_eq hs rfl rfl
  · exact inv_of_buffers_eq hs rfl rfl
  · exact inv_writeFrame hs hf
  · exact inv_writeOpened hs hx

theorem command_inv {w : Byte} {s t : State} (hs : s.Inv) (h : command w s = .next t) : t.Inv := by
  rcases command_cases w s with ⟨-, hc⟩ | ⟨-, -, hc⟩ | ⟨-, i, -, hc⟩
  · obtain rfl := Host.Outcome.next.inj (hc.symm.trans h)
    exact hs
  · obtain rfl := Host.Outcome.next.inj (hc.symm.trans h)
    exact inv_of_buffers_eq hs rfl rfl
  · exact exec_inv hs (hc.symm.trans h)

/-- Every action of the host keeps the invariant: a byte write is performed at offsets of the buffer only, and RESET
empties both buffers. -/
theorem perform_inv {a : HostAccess} {s t : State} (hs : s.Inv) (h : perform a s = .next t) : t.Inv := by
  rcases perform_cases h with ⟨n, -, -, hc⟩ | ⟨r, v, -, hst⟩ | ⟨v, -, rfl⟩ | ⟨b, k, v, -, hk, -, rfl⟩ | ⟨-, rfl⟩
  · exact command_inv hs hc
  · obtain ⟨hpbuf, hfbuf, -⟩ := stores_buffers_status hst
    exact inv_of_buffers_eq hs hpbuf hfbuf
  · exact inv_of_buffers_eq hs rfl rfl
  · exact inv_setBuffer hs b (wf_write _ hk (inv_buffer hs b))
  · exact ⟨wf_nil, wf_nil⟩

/-- Settles O28: a step is idle or performs one action of the host, and every action keeps the invariant. -/
theorem stepKeepsTheBuffersCanonical : Obligations.StepKeepsTheBuffersCanonical := by
  intro s t hs h
  rcases step_cases h with ⟨-, rfl⟩ | ⟨a, rest, -, ha⟩
  · exact hs
  · have hrest : ({ s with pending := rest } : State).Inv := inv_of_buffers_eq hs rfl rfl
    exact perform_inv hrest ha

/-! ### The accesses of a buffer byte (R50, R51) -/

/-- Replacing one buffer leaves the other: no offset of one aliases an offset of the other (R50). -/
theorem buffer_setBuffer (s : State) (b b' : BufName) (m : Memory) :
    (s.setBuffer b m).buffer b' = if b' = b then m else s.buffer b' := by
  cases b <;> cases b' <;> rfl

/-- After a byte of a buffer is written, that byte reads as written and every other byte of both buffers as before. -/
theorem read_setBuffer_write (s : State) (b b' : BufName) (k k' : Nat) (x : Byte) :
    ((s.setBuffer b ((s.buffer b).write k x)).buffer b').read k' =
      if b' = b ∧ k' = k then some x else (s.buffer b').read k' := by
  rw [buffer_setBuffer]
  by_cases hb : b' = b
  · subst hb
    simp only [if_true, true_and, read_write]
  · simp only [hb, if_false, false_and]

/-- A write of a byte at an offset that exists is performed (R51). -/
theorem perform_wrb_of_lt (s : State) (b : BufName) {k v : Nat} (hk : k < bufCap) (hv : v < 2 ^ 8) :
    perform (.wrb b k v) s = .next (s.setBuffer b ((s.buffer b).write k (BitVec.ofNat 8 v))) :=
  (if_pos hk).trans (if_pos hv)

/-- A write at an offset that does not exist is refused, whatever the value (R50, R222). -/
theorem perform_wrb_of_le (s : State) (b : BufName) {k : Nat} (v : Nat) (hk : bufCap ≤ k) :
    perform (.wrb b k v) s = .refused (.noSuchOffset b k) :=
  if_neg hk.not_gt

theorem readBufferByte_of_le (s : State) (b : BufName) {k : Nat} (hk : bufCap ≤ k) :
    readBufferByte b k s = .error (.noSuchOffset b k) :=
  if_neg hk.not_gt

/-- A read at an offset that does not exist is refused (R50, R222). -/
theorem perform_rdb_of_le (s : State) (b : BufName) {k : Nat} (hk : bufCap ≤ k) :
    perform (.rdb b k) s = .refused (.noSuchOffset b k) := by
  rw [perform, hostReadByte, readBufferByte_of_le s b hk, answer]

/-- Settles O35: the write replaces one buffer, by one in which one byte is written; from offset 255 on both accesses are
refused. -/
theorem bufferByteWriteIsLocal : Obligations.BufferByteWriteIsLocal := by
  refine ⟨fun s b k v hk hv => ?_, fun s b k v hk => ⟨perform_wrb_of_le s b v hk, perform_rdb_of_le s b hk⟩⟩
  refine ⟨_, perform_wrb_of_lt s b (Nat.lt_succ_of_le hk) hv, ?_, fun b' k' => read_setBuffer_write s b b' k k' _⟩
  rw [buffer_setBuffer, if_pos rfl]

/-! ### The reads of the host (R56) -/

/-- What a read of a register answers does not depend on what was read before (log 3). -/
theorem readRegister_setReceived (r : RegName) (s : State) (answers : List HostValue) :
    readRegister r { s with received := answers } = readRegister r s := by
  cases r <;> rfl

/-- What a read of a buffer byte answers does not depend on what was read before (log 3). -/
theorem readBufferByte_setReceived (b : BufName) (k : Nat) (s : State) (answers : List HostValue) :
    readBufferByte b k { s with received := answers } = readBufferByte b k s := by
  cases b <;> rfl

theorem answer_eq_next {r : Except Refusal HostValue} {s t : State} (h : answer r s = .next t) :
    ∃ v, r = .ok v ∧ t = { s with received := s.received ++ [v] } := by
  cases r with
  | ok v => exact ⟨v, rfl, (Host.Outcome.next.inj h).symm⟩
  | error e => exact absurd h nofun

/-- A read whose answer does not depend on the list of answers adds its answer to the list, and when it is repeated it adds
the same answer again (R56). -/
theorem answer_repeats {read : State → Except Refusal HostValue} {s t : State}
    (hread : ∀ answers, read { s with received := answers } = read s) (h : answer (read s) s = .next t) :
    ∃ v, t = { s with received := s.received ++ [v] } ∧
      answer (read t) t = .next { s with received := s.received ++ [v, v] } := by
  obtain ⟨v, hv, rfl⟩ := answer_eq_next h
  refine ⟨v, rfl, ?_⟩
  rw [hread, hv, answer, List.append_assoc, List.singleton_append]

/-- Settles O36: both reads answer a value that does not depend on the list of answers. -/
theorem readsHaveNoSideEffects : Obligations.ReadsHaveNoSideEffects := by
  rintro a s t (⟨r, rfl⟩ | ⟨b, k, rfl⟩) h
  · exact answer_repeats (readRegister_setReceived r s) h
  · exact answer_repeats (readBufferByte_setReceived b k s) h

/-! ### The bus addresses (R59) -/

/-- The place an address stands for exists, and the address is that place's. -/
theorem addr_of_portAt {m : RegMap} {a : Nat} {q : Port} (h : portAt m a = some q) : m.addr q = a ∧ q ∈ Port.all := by
  have haddr := List.find?_some h
  exact ⟨beq_iff_eq.mp haddr, List.mem_of_find?_eq_some h⟩

/-- The address of a place stands for it: an injective map gives its address to no other place. -/
theorem portAt_addr (m : RegMap) {p : Port} (hp : p ∈ Port.all) : portAt m (m.addr p) = some p := by
  cases h : portAt m (m.addr p) with
  | none => exact absurd (beq_iff_eq.mpr rfl) (List.find?_eq_none.mp h p hp)
  | some q =>
    obtain ⟨haddr, hq⟩ := addr_of_portAt h
    rw [m.injective q hq p hp haddr]

/-- Settles O38: an address is looked up among the places that exist, which have different addresses. -/
theorem busAddressNamesOnePlace : Obligations.BusAddressNamesOnePlace := fun m _ hp =>
  ⟨portAt_addr m hp, fun _ _ h => addr_of_portAt h⟩

end Sys2Proof.Proofs
end

section
/-! Proofs of the statements of 30_encoding.md: the command word (R82 to R84), STATUS (R85), the two blocks (R75, R78, R80),
and the frame (R72, R87). -/

namespace Sys2Proof.Proofs

open Sys2Proof.Machine Sys2Proof.Laws

/-! ### The command word and its fields (R82) -/

/-- Cutting a word into its fields undoes putting them together. -/
@[simp] theorem ofWord_toWord (f : CommandFields) : CommandFields.ofWord f.toWord = f := by
  have hrsv : f.toWord.extractLsb' 3 5 = f.rsv := by
    rw [CommandFields.toWord, BitVec.append_assoc, BitVec.cast_eq]
    exact BitVec.extractLsb'_append_eq_left
  have hdir : f.toWord.extractLsb' 2 1 = f.dir :=
    (BitVec.extractLsb'_append_eq_of_le (Nat.le_refl 2)).trans BitVec.extractLsb'_append_eq_right
  have hop : f.toWord.extractLsb' 0 2 = f.op := BitVec.extractLsb'_append_eq_right
  rw [CommandFields.ofWord, hrsv, hdir, hop]

/-- Putting the fields of a word together gives the word back: no bit belongs to two fields or to none. -/
@[simp] theorem toWord_ofWord (w : Byte) : (CommandFields.ofWord w).toWord = w := by
  have hhigh : w.extractLsb' 3 5 ++ w.extractLsb' 2 1 = w.extractLsb' 2 6 :=
    BitVec.extractLsb'_append_extractLsb'_eq_extractLsb' rfl
  have hall : w.extractLsb' 2 6 ++ w.extractLsb' 0 2 = w.extractLsb' 0 8 :=
    BitVec.extractLsb'_append_extractLsb'_eq_extractLsb' rfl
  rw [CommandFields.toWord, CommandFields.ofWord, hhigh, hall, BitVec.extractLsb'_eq_self]

theorem eq_toWord_iff {w : Byte} {f : CommandFields} : w = f.toWord ↔ CommandFields.ofWord w = f :=
  ⟨fun h => h ▸ ofWord_toWord f, fun h => h ▸ (toWord_ofWord w).symm⟩

/-! ### The decoder (R83, R84) -/

/-- A word whose fields are those of a command decodes to it. -/
theorem decode_of_fields {w : Byte} {i : Instr} (h : CommandFields.ofWord w = i.fields) : decode w = .ok i := by
  rw [decode, h]
  cases i <;> rfl

/-- A word that decodes to a command has its fields. -/
theorem fields_of_decode {w : Byte} {i : Instr} (h : decode w = .ok i) : CommandFields.ofWord w = i.fields := by
  cases hw : CommandFields.ofWord w with
  | mk rsv dir op =>
    simp only [decode, hw, ne_eq, ite_not] at h
    split_ifs at h with hrsv hop hop
    all_goals
      subst hrsv hop
      obtain rfl | rfl := BitVec.eq_zero_or_eq_one dir <;> exact Except.ok.inj h ▸ rfl

/-- A word decodes to a command exactly when it is that command's word (R83, R84). -/
theorem decode_eq_ok_iff {w : Byte} {i : Instr} : decode w = .ok i ↔ w = encode i :=
  ⟨fun h => eq_toWord_iff.mpr (fields_of_decode h), fun h => decode_of_fields (eq_toWord_iff.mp h)⟩

/-- Settles O1: a word decodes to a command exactly when it is the word of that command. -/
theorem decodeOfEncodeIsTheCommand : Obligations.DecodeOfEncodeIsTheCommand :=
  ⟨fun _ _ => decode_eq_ok_iff.mpr rfl, fun _ _ h => (decode_eq_ok_iff.mp h).symm⟩

/-- The words of the commands (R83). -/
theorem exists_eq_encode_iff (w : Byte) : (∃ i, w = encode i) ↔ w = 0x01 ∨ w = 0x02 ∨ w = 0x05 ∨ w = 0x06 := by
  constructor
  · rintro ⟨i, rfl⟩
    cases i <;> decide
  · rintro (rfl | rfl | rfl | rfl)
    · exact ⟨.encodeUp, rfl⟩
    · exact ⟨.decodeUp, rfl⟩
    · exact ⟨.encodeDn, rfl⟩
    · exact ⟨.decodeDn, rfl⟩

/-- A word decodes exactly when it is one of the four of the command map (R83, R84). -/
theorem exists_decode_eq_ok_iff (w : Byte) :
    (∃ i, decode w = .ok i) ↔ w = 0x01 ∨ w = 0x02 ∨ w = 0x05 ∨ w = 0x06 := by
  simp only [decode_eq_ok_iff, exists_eq_encode_iff]

/-- While FAULT is 0, a write to CMD of a word that is no command sets FAULT with its reason and writes nothing else
(R218, R220). -/
theorem command_of_illegal {w : Byte} {s : State} (hf : s.status.fault = none) (hw : ¬ ∃ i, decode w = .ok i) :
    command w s = .next { s with status := { fault := some .illegalCommand, code := s.status.code } } := by
  rcases command_cases w s with ⟨hne, -⟩ | ⟨-, -, hc⟩ | ⟨-, i, hi, -⟩
  · exact absurd hf hne
  · rw [hc, takeFault, Status.withFault, hf, Option.getD_none]
  · exact absurd ⟨i, hi⟩ hw

/-- Settles O3: the step is the write of the word, and a word that is none of the four is illegal. -/
theorem reservedWordsFault : Obligations.ReservedWordsFault := by
  refine ⟨exists_decode_eq_ok_iff, fun s w rest hp hf h1 h2 h5 h6 => ?_⟩
  have hw : ¬ ∃ i, decode w = .ok i := by
    rw [exists_decode_eq_ok_iff]
    rintro (h | h | h | h)
    exacts [h1 h, h2 h, h5 h, h6 h]
  rw [step_of_pending_cmd hp w.isLt, BitVec.ofNat_toNat, BitVec.setWidth_eq]
  exact command_of_illegal hf hw

/-! ### ENCODE and DECODE as match and mask (R83) -/

/-- The mask 0xFB clears the direction bit and keeps every other. -/
theorem and_mask_eq_toWord (w : Byte) : w &&& 0xFB = { CommandFields.ofWord w with dir := 0 }.toWord := by
  rw [eq_toWord_iff]
  simp only [CommandFields.ofWord, BitVec.extractLsb'_and, CommandFields.mk.injEq]
  exact ⟨BitVec.and_allOnes, BitVec.and_zero, BitVec.and_allOnes⟩

/-- A word matches a pattern under the mask 0xFB exactly when its fields are those of the pattern in one of the two
directions. -/
theorem and_mask_eq_iff (w : Byte) (op : BitVec 2) :
    w &&& 0xFB = (CommandFields.mk 0 0 op).toWord ↔
      CommandFields.ofWord w = ⟨0, 0, op⟩ ∨ CommandFields.ofWord w = ⟨0, 1, op⟩ := by
  rw [and_mask_eq_toWord, eq_toWord_iff, ofWord_toWord]
  obtain ⟨rsv, dir, op'⟩ := CommandFields.ofWord w
  obtain rfl | rfl := BitVec.eq_zero_or_eq_one dir <;> simp

/-- Settles O2: the four words are the commands' own, and a match under the mask leaves the direction open. -/
theorem commandWordsOfTheMap : Obligations.CommandWordsOfTheMap := by
  refine ⟨decode_eq_ok_iff.mpr rfl, decode_eq_ok_iff.mpr rfl, decode_eq_ok_iff.mpr rfl, decode_eq_ok_iff.mpr rfl,
    fun w => ?_⟩
  simp only [decode_eq_ok_iff, encode, eq_toWord_iff]
  exact ⟨and_mask_eq_iff w 1, and_mask_eq_iff w 2⟩

/-! ### STATUS (R85) -/

theorem toByte_getLsbD_seven (st : Status) : st.toByte.getLsbD 7 = true ↔ st.fault ≠ none := by
  obtain ⟨fault, code⟩ := st
  simp only [Status.toByte, BitVec.getLsbD_append]
  cases fault <;> simp [Status.faultBit]

theorem toByte_extractLsb'_three_four (st : Status) : st.toByte.extractLsb' 3 4 = 0 :=
  (BitVec.extractLsb'_append_eq_of_le (Nat.le_refl 3)).trans BitVec.extractLsb'_append_eq_right

theorem toByte_extractLsb'_zero_three (st : Status) : st.toByte.extractLsb' 0 3 = st.code.bits :=
  BitVec.extractLsb'_append_eq_right

/-- The numbers of the codes are 0 to 5; 6 and 7 are never produced (R85). -/
theorem code_bits_le (c : Code) : c.bits.toNat ≤ 5 := by
  cases c with
  | idle | ok => decide
  | error e => cases e <;> decide

/-- Two bit strings put together, as a number. -/
theorem toNat_append_eq_add {m n : Nat} (x : BitVec m) (y : BitVec n) :
    (x ++ y).toNat = x.toNat * 2 ^ n + y.toNat := by
  rw [BitVec.toNat_append, ← Nat.shiftLeft_add_eq_or_of_lt y.isLt, Nat.shiftLeft_eq]

/-- STATUS as a number: FAULT counts 0x80. -/
theorem toByte_toNat (st : Status) : st.toByte.toNat = st.faultBit.toNat * 0x80 + st.code.bits.toNat := by
  have happend : st.toByte.toNat = (st.faultBit ++ 0#4).toNat * 2 ^ 3 + st.code.bits.toNat := toNat_append_eq_add ..
  rw [happend, toNat_append_eq_add, BitVec.toNat_zero]
  omega

/-- Settles O4: the three fields of the byte, one by one, and its value as a number. -/
theorem statusByteHasItsLayout : Obligations.StatusByteHasItsLayout := by
  refine ⟨fun st => ⟨toByte_getLsbD_seven st, toByte_extractLsb'_three_four st, ?_⟩, fun st => ?_⟩
  · obtain ⟨fault, code⟩ := st
    rw [toByte_extractLsb'_zero_three]
    cases code with
    | idle | ok => rfl
    | error e => cases e <;> rfl
  · have hcode := code_bits_le st.code
    have hfault := st.faultBit.isLt
    rw [toByte_toNat]
    omega

/-! ### The counter block and the authentication block (R75, R78, R80) -/

/-- Both kinds of block, byte by byte, as numbers (R123). -/
theorem purposeBlock_toNat (q : BlockPurpose) (d : Direction) (dev : DevAddr) (fcnt : Half) (t14 t15 : Byte) :
    (purposeBlock q d dev fcnt t14 t15).toList.map BitVec.toNat =
      [q.code.toNat, 0, 0, 0, 0, (dirByte d).toNat, dev[0].toNat, dev[1].toNat, dev[2].toNat, dev[3].toNat,
        fcnt.toNat % 256, fcnt.toNat / 256, 0, 0, t14.toNat, t15.toNat] := by
  rw [← lo8_toNat, ← hi8_toNat]
  rfl

/-- Settles O39: the tail bytes are the low and the high byte of the block index. -/
theorem counterBlockByteByByte : Obligations.CounterBlockByteByByte := by
  intro d dev fcnt i
  rw [ctrblk, purposeBlock_toNat, lo8_toNat, hi8_toNat]
  cases d <;> rfl

theorem authblkOfLength_of_le {m : Nat} (d : Direction) (dev : DevAddr) (fcnt : Half) (h : m ≤ 255) :
    authblkOfLength d dev fcnt m = some (authblk d dev fcnt (BitVec.ofNat 8 m)) :=
  if_pos h

theorem authblkOfLength_of_lt {m : Nat} (d : Direction) (dev : DevAddr) (fcnt : Half) (h : 255 < m) :
    authblkOfLength d dev fcnt m = none :=
  if_neg h.not_ge

/-- Settles O40: a length up to 255 is its own last byte. -/
theorem authBlockByteByByte : Obligations.AuthBlockByteByByte := by
  refine fun d dev fcnt m => ⟨fun h => ?_, authblkOfLength_of_lt d dev fcnt⟩
  have hm : (BitVec.ofNat 8 m).toNat = m := Nat.mod_eq_of_lt (Nat.lt_succ_of_le h)
  rw [authblkOfLength_of_le d dev fcnt h, Option.map_some, authblk, purposeBlock_toNat, hm]
  cases d <;> rfl

/-- Byte 0 of a block is its purpose code (R80). -/
theorem purposeBlock_getElem_zero (q : BlockPurpose) (d : Direction) (dev : DevAddr) (fcnt : Half) (t14 t15 : Byte) :
    (purposeBlock q d dev fcnt t14 t15)[0] = q.code := rfl

/-- A counter block and an authentication block differ in byte 0 (R80). -/
theorem ctrblk_getElem_zero_ne_authblk (d₁ d₂ : Direction) (dev₁ dev₂ : DevAddr) (f₁ f₂ i : Half) (m : Byte) :
    (ctrblk d₁ dev₁ f₁ i)[0] ≠ (authblk d₂ dev₂ f₂ m)[0] := by
  rw [ctrblk, authblk, purposeBlock_getElem_zero, purposeBlock_getElem_zero]
  decide

/-- Settles O42: the purpose codes differ, and they are byte 0 of the blocks. -/
theorem counterAndAuthBlocksNeverMeet : Obligations.CounterAndAuthBlocksNeverMeet := by
  refine ⟨rfl, rfl, fun d₁ d₂ dev₁ dev₂ f₁ f₂ i m => ?_⟩
  have hne := ctrblk_getElem_zero_ne_authblk d₁ d₂ dev₁ dev₂ f₁ f₂ i m
  exact ⟨hne, fun h => hne (congrArg (·[0]) h)⟩

/-! ### The frame by offset (R72) -/

theorem trunc_getElem? {t : TagLen} {k : Nat} (b : Block128) (h : k < tagLength t) :
    (trunc t b)[k]? = b.toList[k]? :=
  List.getElem?_take_of_lt h

section FrameOffsets

variable (cfg : Config) (d : Direction) (ka kn : Key128) (h : Header) (p : Bytes)

/-- The first `9 + N` bytes of a frame are what its tag is made over (R185). -/
theorem take_sealFrame : (sealFrame cfg d ka kn h p).take (9 + p.length) = sealedMessage cfg d ka h p :=
  List.take_left' (sealedMessage_length ..)

/-- Offsets 0 to 8 hold the header. -/
theorem sealFrame_getElem?_header {k : Nat} (hk : k < 9) :
    (sealFrame cfg d ka kn h p)[k]? = (headerBytes cfg.marker h)[k]? := by
  rw [sealFrame_eq, List.append_assoc, List.getElem?_append_left hk]

/-- Offsets 9 to `8 + N` hold the ciphertext. -/
theorem sealFrame_getElem?_ciphertext {j : Nat} (hj : j < p.length) :
    (sealFrame cfg d ka kn h p)[9 + j]? = (stream (blockCipher cfg.cipher) ka d h.dev h.fcnt p)[j]? := by
  rw [sealFrame_eq, List.append_assoc, List.getElem?_append_right (Nat.le_add_right 9 j), headerBytes_length,
    Nat.add_sub_cancel_left, List.getElem?_append_left (by rwa [stream_length])]

/-- From offset `9 + N` on a frame holds the tag. -/
theorem sealFrame_getElem?_tag (k : Nat) :
    (sealFrame cfg d ka kn h p)[9 + p.length + k]? =
      (tag cfg kn d h.dev h.fcnt (headerLen + p.length) (sealedMessage cfg d ka h p))[k]? := by
  have hlen : (sealedMessage cfg d ka h p).length = 9 + p.length := sealedMessage_length ..
  rw [sealFrame_eq_message_append_tag, ← hlen, List.getElem?_append_right (Nat.le_add_right ..),
    Nat.add_sub_cancel_left]

end FrameOffsets

/-- Settles O11: each offset falls in the header, the ciphertext or the tag. -/
theorem frameLayoutByOffset : Obligations.FrameLayoutByOffset := by
  intro cfg d ka kn dev fctrl fport fcnt p hp f ct t16
  have hheader := fun k (hk : k < 9) => sealFrame_getElem?_header cfg d ka kn ⟨dev, fctrl, fcnt, fport⟩ p hk
  refine ⟨sealFrame_length .., sealFrame_length_le d ka kn _ hp, hheader 0 (by decide), fun k => ?_,
    hheader 5 (by decide), ?_, ?_, hheader 8 (by decide), stream_length ..,
    fun j hj => sealFrame_getElem?_ciphertext cfg d ka kn _ p hj, fun k hk => ?_⟩
  · refine (hheader (1 + k.val) (by omega)).trans ?_
    fin_cases k <;> rfl
  · rw [← lo8_toNat, BitVec.ofNat_toNat, BitVec.setWidth_eq]
    exact hheader 6 (by decide)
  · rw [← hi8_toNat, BitVec.ofNat_toNat, BitVec.setWidth_eq]
    exact hheader 7 (by decide)
  · have hmessage : f.take (9 + p.length) = sealedMessage cfg d ka ⟨dev, fctrl, fcnt, fport⟩ p := take_sealFrame ..
    simp only [f, t16]
    rw [sealFrame_getElem?_tag, tag_eq, trunc_getElem? _ hk, hmessage]
    rfl

/-! ### Frames with a short and with a long tag (R87, R161) -/

/-- The 4-byte tag is the leading part of the 8-byte tag (R87). -/
theorem take_four_tag_eight (cfg : Config) (kn : Key128) (d : Direction) (dev : DevAddr) (fcnt : Half) (n : Nat)
    (m : Bytes) :
    (tag { cfg with tagLen := .eight } kn d dev fcnt n m).take 4 = tag { cfg with tagLen := .four } kn d dev fcnt n m :=
  List.take_take

/-- Settles O55: the two frames have the same message, and the short tag leads the long one. -/
theorem shortTagLeadsTheLongTag : Obligations.ShortTagLeadsTheLongTag := by
  intro cfg d ka kn h p
  have hlen : (sealedMessage { cfg with tagLen := .eight } d ka h p).length = 9 + p.length := sealedMessage_length ..
  rw [sealFrame_eq_message_append_tag { cfg with tagLen := .eight }, ← hlen, List.take_length_add_append,
    take_four_tag_eight]
  rfl

end Sys2Proof.Proofs
end

section
/-! Proofs of the statements of 40_block_cipher.md: the field of R103, the S-box (R106), the round steps (R107, R108),
the key schedule (R104), and AES-128 as a whole (R105, R109 to R112). -/

namespace Sys2Proof.Proofs

open Sys2Proof.Machine Sys2Proof.Laws

/-! ### The product of GF(2^8) (R103) -/

/-- A byte that is added for one bit or for another is added for their sum. -/
theorem ite_xor_bits (p q : Bool) (x : Byte) :
    (if p ^^ q then x else 0) = (if p then x else 0) ^^^ (if q then x else 0) := by
  cases p <;> cases q <;> simp

/-- `xtime` in 8 bits: the bit that is shifted out comes back as 0x1B. -/
theorem xtime_eq (a : Byte) : xtime a = a <<< 1 ^^^ (if a.getLsbD 7 then 0x1B else 0) := by
  decide +revert +kernel

@[simp] theorem xtime_zero : xtime 0 = 0 := by decide

theorem xtime_ite (p : Bool) (a : Byte) : xtime (if p then a else 0) = if p then xtime a else 0 := by
  rw [apply_ite xtime, xtime_zero]

@[simp] theorem xtime_xor (a b : Byte) : xtime (a ^^^ b) = xtime a ^^^ xtime b := by
  rw [xtime_eq, xtime_eq, xtime_eq, BitVec.getLsbD_xor, ite_xor_bits, BitVec.shiftLeft_xor_distrib]
  ac_rfl

/-- Each further bit of the second factor adds its power or nothing. -/
theorem gfMulBelow_succ (a b : Byte) (n : Nat) :
    gfMulBelow a b (n + 1) = gfMulBelow a b n ^^^ (if b.getLsbD n then xtimePow n a else 0) := by
  rw [gfMulBelow]
  split
  · rfl
  · exact BitVec.xor_zero.symm

theorem gfMulBelow_xor_right (a b c : Byte) (n : Nat) :
    gfMulBelow a (b ^^^ c) n = gfMulBelow a b n ^^^ gfMulBelow a c n := by
  induction n with
  | zero => exact BitVec.xor_zero.symm
  | succ n ih =>
    rw [gfMulBelow_succ, gfMulBelow_succ, gfMulBelow_succ, ih, BitVec.getLsbD_xor, ite_xor_bits]
    ac_rfl

/-- The product distributes over the sum in its second factor. -/
theorem gfMul_xor_right (a b c : Byte) : gfMul a (b ^^^ c) = gfMul a b ^^^ gfMul a c :=
  gfMulBelow_xor_right a b c 8

@[simp] theorem gfMul_zero (a : Byte) : gfMul a 0 = 0 := by simp [gfMul, gfMulBelow]

@[simp] theorem gfMul_one (a : Byte) : gfMul a 1 = a := by simp [gfMul, gfMulBelow, xtimePow]

@[simp] theorem gfMul_two (a : Byte) : gfMul a 2 = gfMul2 a := by simp [gfMul, gfMulBelow, xtimePow, gfMul2]

@[simp] theorem gfMul_three (a : Byte) : gfMul a 3 = gfMul3 a := by
  simp [gfMul, gfMulBelow, xtimePow, gfMul3, BitVec.xor_comm]

@[simp] theorem zero_gfMul (b : Byte) : gfMul 0 b = 0 := by decide +revert +kernel

@[simp] theorem one_gfMul (b : Byte) : gfMul 1 b = b := by decide +revert +kernel

/-- Shifting the second factor up by one bit multiplies by `x` what its bits add up to. -/
theorem gfMulBelow_shiftLeft_one (a b : Byte) {n : Nat} (h : n < 8) :
    gfMulBelow a (b <<< 1) (n + 1) = xtime (gfMulBelow a b n) := by
  induction n with
  | zero =>
    have hbit : (b <<< 1).getLsbD 0 = false := by simp
    rw [gfMulBelow_succ, hbit]
    exact BitVec.xor_zero.trans xtime_zero.symm
  | succ n ih =>
    have hbit : (b <<< 1).getLsbD (n + 1) = b.getLsbD n := by
      rw [BitVec.getLsbD_shiftLeft, decide_eq_true h]
      rfl
    rw [gfMulBelow_succ, ih (Nat.lt_of_succ_lt h), hbit, gfMulBelow_succ, xtime_xor, xtime_ite, xtimePow]

/-- `x^8` is `x^4 + x^3 + x + 1`, which the byte 0x1B stands for. -/
theorem gfMul_0x1B (a : Byte) : gfMul a 0x1B = xtimePow 8 a := by decide +revert +kernel

/-- The product commutes with multiplication by `x`. -/
theorem gfMul_xtime (a b : Byte) : gfMul a (xtime b) = xtime (gfMul a b) := by
  have hshift : gfMul a (b <<< 1) = xtime (gfMulBelow a b 7) := gfMulBelow_shiftLeft_one a b (by decide)
  have htop : gfMul a b = gfMulBelow a b 7 ^^^ (if b.getLsbD 7 then xtimePow 7 a else 0) := gfMulBelow_succ a b 7
  rw [xtime_eq b, gfMul_xor_right, hshift, htop, xtime_xor, apply_ite (gfMul a), gfMul_0x1B, gfMul_zero, xtime_ite,
    xtimePow]

theorem gfMul_xtimePow (k : Nat) (a b : Byte) : gfMul a (xtimePow k b) = xtimePow k (gfMul a b) := by
  induction k with
  | zero => rfl
  | succ k ih => rw [xtimePow, gfMul_xtime, ih, xtimePow]

theorem gfMul_gfMulBelow (a b c : Byte) (n : Nat) : gfMul a (gfMulBelow b c n) = gfMulBelow (gfMul a b) c n := by
  induction n with
  | zero => exact gfMul_zero a
  | succ n ih =>
    rw [gfMulBelow_succ, gfMulBelow_succ, gfMul_xor_right, ih, apply_ite (gfMul a), gfMul_xtimePow, gfMul_zero]

theorem gfMul_assoc (a b c : Byte) : gfMul (gfMul a b) c = gfMul a (gfMul b c) :=
  (gfMul_gfMulBelow a b c 8).symm

/-! ### The S-box (R106) -/

/-- The affine map of R106. -/
def sboxAffine (b : Byte) : Byte :=
  b ^^^ b.rotateLeft 1 ^^^ b.rotateLeft 2 ^^^ b.rotateLeft 3 ^^^ b.rotateLeft 4 ^^^ 0x63

/-- The inverse of the affine map. -/
def sboxAffineInv (b : Byte) : Byte := b.rotateLeft 1 ^^^ b.rotateLeft 3 ^^^ b.rotateLeft 6 ^^^ 0x05

/-- The inverse in GF(2^8), with 0 for 0, read off the table: the byte whose affine image is the entry. -/
def gfInv (a : Byte) : Byte := sboxAffineInv (sbox a)

theorem sboxAffine_sboxAffineInv (b : Byte) : sboxAffine (sboxAffineInv b) = b := by decide +revert +kernel

theorem sboxAffine_gfInv (a : Byte) : sboxAffine (gfInv a) = sbox a := sboxAffine_sboxAffineInv (sbox a)

@[simp] theorem gfInv_zero : gfInv 0 = 0 := by decide

/-- What is read off the table for a byte other than 0 is an inverse of it: the one check of the entries. -/
theorem gfInv_gfMul : ∀ {a : Byte}, a ≠ 0 → gfMul (gfInv a) a = 1 := by decide +kernel

/-- There is no other inverse. -/
theorem eq_gfInv_of_gfMul_eq_one {a b : Byte} (ha : a ≠ 0) (h : gfMul a b = 1) : b = gfInv a :=
  calc b = gfMul (gfMul (gfInv a) a) b := by rw [gfInv_gfMul ha, one_gfMul]
    _ = gfInv a := by rw [gfMul_assoc, h, gfMul_one]

theorem ne_zero_of_gfMul_eq_one {a b : Byte} (h : gfMul a b = 1) : a ≠ 0 := by
  rintro rfl
  rw [zero_gfMul] at h
  exact absurd h (by decide)

@[simp] theorem gfInv_gfInv (a : Byte) : gfInv (gfInv a) = a := by
  by_cases ha : a = 0
  · rw [ha, gfInv_zero, gfInv_zero]
  · have hone := gfInv_gfMul ha
    exact (eq_gfInv_of_gfMul_eq_one (ne_zero_of_gfMul_eq_one hone) hone).symm

theorem exists_gfMul_eq_one {a : Byte} (ha : a ≠ 0) : ∃ b, gfMul a b = 1 := by
  have hne : gfInv a ≠ 0 := ne_zero_of_gfMul_eq_one (gfInv_gfMul ha)
  have hone := gfInv_gfMul hne
  rw [gfInv_gfInv] at hone
  exact ⟨gfInv a, hone⟩

/-- The inverse is read off the entry, and is an involution. -/
theorem sbox_injective : Function.Injective sbox := fun a b h => by
  have hinv : gfInv a = gfInv b := congrArg sboxAffineInv h
  rw [← gfInv_gfInv a, hinv, gfInv_gfInv]

/-- Settles O47: the byte `b` of the formula is the inverse that is read off the table. -/
theorem sboxIsItsFormula : Obligations.SboxIsItsFormula := by
  refine ⟨fun a b hab => ?_, fun _ => exists_gfMul_eq_one, fun _ _ h => sbox_injective h, by decide, by decide,
    by decide⟩
  have hb : b = gfInv a := by
    rcases hab with h | ⟨rfl, rfl⟩
    · exact eq_gfInv_of_gfMul_eq_one (ne_zero_of_gfMul_eq_one h) h
    · exact gfInv_zero.symm
  rw [hb]
  exact (sboxAffine_gfInv a).symm

/-! ### Blocks by columns (R102) -/

/-- A block is cut into columns in the way a key is cut into words: byte `r` of column `c` is byte `r + 4c`. -/
theorem keyWord_getElem (s : Block128) {c r : Nat} (hc : c < 4) (hr : r < 4) : (keyWord s c)[r] = s[4 * c + r] := by
  interval_cases c <;> interval_cases r <;> rfl

/-- A block is known by its four columns. -/
theorem block_ext_columns {s t : Block128} (h : ∀ c < 4, keyWord s c = keyWord t c) : s = t := by
  refine Vector.ext fun k hk => ?_
  obtain ⟨c, r, hc, hr, rfl⟩ : ∃ c r, c < 4 ∧ r < 4 ∧ k = 4 * c + r := ⟨k / 4, k % 4, by omega⟩
  rw [← keyWord_getElem s hc hr, ← keyWord_getElem t hc hr, h c hc]

theorem toList_getD_column (s : Block128) {c r : Nat} (hc : c < 4) (hr : r < 4) :
    s.toList.getD (4 * c + r) 0 = (keyWord s c)[r] := by
  have hk : 4 * c + r < 16 := by omega
  rw [keyWord_getElem s hc hr]
  simp [hk]

/-- Column `c` of a block, by offsets into its bytes. -/
theorem toList_keyWord (s : Block128) {c : Nat} (hc : c < 4) :
    (keyWord s c).toList = (s.toList.drop (4 * c)).take 4 := by
  refine List.ext_getElem (by simp; omega) fun r hr _ => ?_
  simp [keyWord_getElem s hc (by simpa using hr)]

/-- The bytes of a block are those of its columns, one after the other. -/
theorem toList_eq_columns (s : Block128) :
    s.toList = ([keyWord s 0, keyWord s 1, keyWord s 2, keyWord s 3].map Vector.toList).flatten := by
  obtain ⟨⟨l⟩, hl⟩ := s
  match l, hl with
  | [_, _, _, _, _, _, _, _, _, _, _, _, _, _, _, _], _ => rfl

/-! ### ShiftRows and MixColumns (R107, R108) -/

/-- Rotating each row by its number four times rotates it all the way round. -/
theorem shiftRows_four (s : Block128) : shiftRows (shiftRows (shiftRows (shiftRows s))) = s := by
  refine Vector.ext fun k hk => ?_
  interval_cases k <;> rfl

/-- The byte that MixColumns makes of the bytes of a column, starting at its own. -/
def mixByte (a b c d : Byte) : Byte := gfMul2 a ^^^ gfMul3 b ^^^ c ^^^ d

/-- The column that MixColumns makes of a column. -/
def mixColumn (a : KeyWord) : KeyWord :=
  #v[mixByte a[0] a[1] a[2] a[3], mixByte a[1] a[2] a[3] a[0], mixByte a[2] a[3] a[0] a[1], mixByte a[3] a[0] a[1] a[2]]

/-- MixColumns works on each column by itself. -/
theorem keyWord_mixColumns (s : Block128) {c : Nat} (hc : c < 4) :
    keyWord (mixColumns s) c = mixColumn (keyWord s c) := by
  interval_cases c <;> rfl

/-- The four lines of R108. -/
theorem mixColumn_lines (a : KeyWord) :
    (mixColumn a)[0] = gfMul2 a[0] ^^^ gfMul3 a[1] ^^^ a[2] ^^^ a[3] ∧
    (mixColumn a)[1] = a[0] ^^^ gfMul2 a[1] ^^^ gfMul3 a[2] ^^^ a[3] ∧
    (mixColumn a)[2] = a[0] ^^^ a[1] ^^^ gfMul2 a[2] ^^^ gfMul3 a[3] ∧
    (mixColumn a)[3] = gfMul3 a[0] ^^^ a[1] ^^^ a[2] ^^^ gfMul2 a[3] := by
  refine ⟨rfl, ?_, ?_, ?_⟩
  all_goals
    dsimp only [mixColumn, mixByte, Vector.getElem_mk, List.getElem_toArray, List.getElem_cons_succ,
      List.getElem_cons_zero]
    ac_rfl

/-- Settles O48: the list is ShiftRows itself, and each column of MixColumns is that of its four lines. -/
theorem roundStepsFollowTheirTables : Obligations.RoundStepsFollowTheirTables := by
  refine ⟨fun _ => rfl, fun s c hc => ?_⟩
  simp only [toList_getD_column _ hc, keyWord_mixColumns s hc, Nat.reduceLT, Nat.ofNat_pos, gfMul_two, gfMul_three]
  exact mixColumn_lines _

/-- The byte that MixColumns, applied twice, makes of a byte and the one two below it in the column. -/
def mixByteTwice (a c : Byte) : Byte := xtime (xtime (a ^^^ c)) ^^^ a

/-- The factors 02, 03, 01, 01 of MixColumns, applied twice, are 05, 00, 04, 00. -/
theorem mixByte_mixByte (a b c d : Byte) :
    mixByte (mixByte a b c d) (mixByte b c d a) (mixByte c d a b) (mixByte d a b c) = mixByteTwice a c := by
  simp only [mixByte, mixByteTwice, gfMul2, gfMul3, xtime_xor]
  ac_nf
  simp

theorem mixColumn_mixColumn (a : KeyWord) : mixColumn (mixColumn a) =
    #v[mixByteTwice a[0] a[2], mixByteTwice a[1] a[3], mixByteTwice a[2] a[0], mixByteTwice a[3] a[1]] := by
  refine Vector.ext fun k hk => ?_
  interval_cases k <;> exact mixByte_mixByte _ _ _ _

/-- Both bytes gain the same, so that their sum is the old one and takes the gain away again. -/
theorem mixByteTwice_mixByteTwice (a c : Byte) : mixByteTwice (mixByteTwice a c) (mixByteTwice c a) = a := by
  have hsum : mixByteTwice a c ^^^ mixByteTwice c a = a ^^^ c := by
    rw [mixByteTwice, mixByteTwice, BitVec.xor_comm c a]
    ac_nf
    simp
  rw [mixByteTwice, hsum, mixByteTwice, ← BitVec.xor_assoc, BitVec.xor_self, BitVec.zero_xor]

/-- MixColumns four times changes nothing. -/
theorem mixColumn_four (a : KeyWord) : mixColumn (mixColumn (mixColumn (mixColumn a))) = a := by
  rw [mixColumn_mixColumn, mixColumn_mixColumn]
  refine Vector.ext fun k hk => ?_
  interval_cases k <;> exact mixByteTwice_mixByteTwice _ _

/-! ### The key schedule (R104) -/

@[simp] theorem expandKeyFrom_length (n j : Nat) (a b c d : KeyWord) : (expandKeyFrom n j a b c d).length = n := by
  induction n generalizing j a b c d with
  | zero => rfl
  | succ n ih => rw [expandKeyFrom, List.length_cons, ih]

@[simp] theorem keyWords_length (key : Key128) : (keyWords key).length = 44 := by
  rw [keyWords, List.length_append, expandKeyFrom_length]
  rfl

/-- Entry `i + 4` of a list of key words is the `w[j]` that follows from the entries 4 and 1 before it (R104). -/
def FollowsRecurrence (ws : List KeyWord) (i j : Nat) : Prop :=
  ∃ back4 back1, ws[i]? = some back4 ∧ ws[i + 3]? = some back1 ∧ ws[i + 4]? = some (nextKeyWord j back4 back1)

theorem expandKeyFrom_recurrence {n i : Nat} (hi : i < n) (j : Nat) (a b c d : KeyWord) :
    FollowsRecurrence ([a, b, c, d] ++ expandKeyFrom n j a b c d) i (j + i) := by
  induction n generalizing i j a b c d with
  | zero => exact absurd hi (Nat.not_lt_zero i)
  | succ n ih =>
    cases i with
    | zero => exact ⟨a, d, rfl, rfl, rfl⟩
    | succ i =>
      have hnext := ih (Nat.lt_of_succ_lt_succ hi) (j + 1) b c d (nextKeyWord j a d)
      rwa [Nat.add_right_comm, Nat.add_assoc] at hnext

theorem keyWords_recurrence (key : Key128) {i : Nat} (hi : i < 40) : FollowsRecurrence (keyWords key) i (i + 4) := by
  rw [Nat.add_comm i 4]
  exact expandKeyFrom_recurrence hi 4 ..

theorem keyWords_getElem?_of_lt (key : Key128) {j : Nat} (hj : j < 4) : (keyWords key)[j]? = some (keyWord key j) := by
  interval_cases j <;> rfl

/-- A round key is made of four words of the schedule. -/
theorem keyWord_roundKey (ws : List KeyWord) (r : Nat) {c : Nat} (hc : c < 4) :
    keyWord (roundKey ws r) c = ws.getD (4 * r + c) #v[0, 0, 0, 0] := by
  refine Vector.ext fun k hk => ?_
  interval_cases c <;> interval_cases k <;> rfl

/-- Four entries of a list from offset `n` on. -/
theorem take_four_drop {α : Type} (l : List α) {n : Nat} (h : n + 4 ≤ l.length) (x : α) :
    (l.drop n).take 4 = [l.getD n x, l.getD (n + 1) x, l.getD (n + 2) x, l.getD (n + 3) x] := by
  refine List.ext_getElem (by simp; omega) fun k hk hk4 => ?_
  have hlt : k < 4 := hk4
  have hget : ((l.drop n).take 4).getD k x = l.getD (n + k) x := by simp [List.getD_eq_getElem?_getD, hlt]
  rw [← List.getD_eq_getElem _ x hk, hget]
  interval_cases k <;> rfl

/-- A round key is cut from the schedule (R104). -/
theorem roundKey_toList (ws : List KeyWord) {r : Nat} (h : 4 * r + 4 ≤ ws.length) :
    (roundKey ws r).toList = (((ws.drop (4 * r)).take 4).map Vector.toList).flatten := by
  rw [toList_eq_columns, take_four_drop ws h #v[0, 0, 0, 0]]
  simp only [keyWord_roundKey, Nat.ofNat_pos, Nat.reduceLT, Nat.add_zero]

/-- Each round constant is `xtime` of the one before (R104). -/
theorem rcon_succ {j : Nat} (h1 : 1 ≤ j) (h10 : j < 10) : rcon (j + 1) = xtime (rcon j) := by
  interval_cases j <;> decide

/-- Settles O49: the recurrence is the one of the expansion, and a round key's columns are words of the schedule. -/
theorem keyScheduleFollowsItsRecurrence : Obligations.KeyScheduleFollowsItsRecurrence := by
  refine ⟨⟨rfl, fun _ => rcon_succ⟩, fun key => ⟨keyWords_length key, fun j hj => ?_, fun j h4 h44 => ?_,
    fun r hr => roundKey_toList _ ?_⟩⟩
  · rw [keyWords_getElem?_of_lt key hj, Option.map_some, toList_keyWord key hj]
  · obtain ⟨i, rfl⟩ := Nat.exists_eq_add_of_le' h4
    exact keyWords_recurrence key (Nat.lt_of_add_lt_add_right h44)
  · rw [keyWords_length]
    omega

/-! ### The cipher (R105, R109 to R112) -/

/-- Settles O46: the three vectors, evaluated. -/
theorem aesPublishedVectors : Obligations.AesPublishedVectors :=
  ⟨by decide +kernel, by decide +kernel, by decide +kernel⟩

theorem subBytes_getElem (s : Block128) {k : Nat} (hk : k < 16) : (subBytes s)[k] = sbox s[k] :=
  mkBlock_getElem _ k hk

theorem subBytes_injective : Function.Injective subBytes := fun s t h => by
  refine Vector.ext fun k hk => sbox_injective ?_
  rw [← subBytes_getElem s hk, h, subBytes_getElem]

theorem shiftRows_injective : Function.Injective shiftRows := fun s t h => by
  rw [← shiftRows_four s, h, shiftRows_four]

theorem mixColumn_injective : Function.Injective mixColumn := fun a b h => by
  rw [← mixColumn_four a, h, mixColumn_four]

theorem mixColumns_injective : Function.Injective mixColumns := fun s t h => by
  refine block_ext_columns fun c hc => mixColumn_injective ?_
  rw [← keyWord_mixColumns s hc, ← keyWord_mixColumns t hc, h]

theorem xorBlock_injective_left (k : Block128) : Function.Injective (xorBlock · k) := fun s t h => by
  refine Vector.ext fun i hi => (BitVec.xor_left_inj k[i]).mp ?_
  rw [← xorBlock_getElem s k i hi, ← xorBlock_getElem t k i hi]
  exact congrArg (·[i]) h

theorem aesRounds_injective (ws : List KeyWord) (n r : Nat) : Function.Injective (aesRounds ws n r) := by
  induction n generalizing r with
  | zero => exact (xorBlock_injective_left _).comp (shiftRows_injective.comp subBytes_injective)
  | succ n ih =>
    exact (ih (r + 1)).comp ((xorBlock_injective_left _).comp
      (mixColumns_injective.comp (shiftRows_injective.comp subBytes_injective)))

theorem aes128_injective (key : Key128) : Function.Injective (aes128 key) :=
  (aesRounds_injective _ _ _).comp (xorBlock_injective_left _)

theorem finite_block128 : Finite Block128 :=
  Finite.of_injective (fun (s : Block128) (k : Fin 16) => s[k]) fun s t h => Vector.ext fun k hk => congrFun h ⟨k, hk⟩

/-- Settles O50: each step of a round can be undone, so no two blocks have the same image, and there are only finitely
many blocks. -/
theorem aesIsABijectionForEveryKey : Obligations.AesIsABijectionForEveryKey := fun key =>
  haveI := finite_block128
  Finite.injective_iff_bijective.mp (aes128_injective key)

end Sys2Proof.Proofs
end

section
/-! Proofs of the statements of 41_counter_block.md: a counter block holds each of its operands in bytes of its own (R122),
and the blocks of one frame have bytes 0 to 13 in common (R121). -/

namespace Sys2Proof.Proofs

open Sys2Proof.Machine Sys2Proof.Laws

/-! ### The bytes of a block (R75, R123) -/

theorem dirByte_injective : Function.Injective dirByte := fun d₁ d₂ h => by
  cases d₁ <;> cases d₂
  case uplink.uplink | downlink.downlink => rfl
  case uplink.downlink | downlink.uplink => exact absurd h (by decide)

/-- Bytes 0 to 13 of a block do not depend on its tail bytes (R123). -/
theorem purposeBlock_getElem_of_lt (q : BlockPurpose) (d : Direction) (dev : DevAddr) (fcnt : Half)
    (t14 t15 u14 u15 : Byte) {k : Nat} (hk : k < 14) :
    (purposeBlock q d dev fcnt t14 t15)[k] = (purposeBlock q d dev fcnt u14 u15)[k] := by
  interval_cases k <;> rfl

section EqualBlocks

variable {q : BlockPurpose} {d₁ d₂ : Direction} {dev₁ dev₂ : DevAddr} {f₁ f₂ : Half} {t14 t15 u14 u15 : Byte}
  (h : purposeBlock q d₁ dev₁ f₁ t14 t15 = purposeBlock q d₂ dev₂ f₂ u14 u15)

include h

/-- The direction is read off byte 5. -/
theorem direction_eq_of_purposeBlock_eq : d₁ = d₂ :=
  dirByte_injective (congrArg (·[5]) h)

/-- The address is read off bytes 6 to 9. -/
theorem dev_eq_of_purposeBlock_eq : dev₁ = dev₂ := by
  refine Vector.ext fun k hk => ?_
  have hbyte : (purposeBlock q d₁ dev₁ f₁ t14 t15)[6 + k] = (purposeBlock q d₂ dev₂ f₂ u14 u15)[6 + k] := by rw [h]
  interval_cases k <;> exact hbyte

/-- The counter is read off bytes 10 and 11. -/
theorem fcnt_eq_of_purposeBlock_eq : f₁ = f₂ :=
  half_ext f₁ f₂ (congrArg (·[10]) h) (congrArg (·[11]) h)

/-- The tail bytes are bytes 14 and 15. -/
theorem tail_eq_of_purposeBlock_eq : t14 = u14 ∧ t15 = u15 :=
  ⟨congrArg (·[14]) h, congrArg (·[15]) h⟩

end EqualBlocks

/-! ### The counter block (R121, R122) -/

/-- A counter block determines its operands (R122): the index is in the tail bytes. -/
theorem ctrblk_inj {d₁ d₂ : Direction} {dev₁ dev₂ : DevAddr} {f₁ f₂ i₁ i₂ : Half}
    (h : ctrblk d₁ dev₁ f₁ i₁ = ctrblk d₂ dev₂ f₂ i₂) : d₁ = d₂ ∧ dev₁ = dev₂ ∧ f₁ = f₂ ∧ i₁ = i₂ := by
  obtain ⟨hlo, hhi⟩ := tail_eq_of_purposeBlock_eq h
  exact ⟨direction_eq_of_purposeBlock_eq h, dev_eq_of_purposeBlock_eq h, fcnt_eq_of_purposeBlock_eq h,
    half_ext i₁ i₂ hlo hhi⟩

/-- Settles O41: each operand is read off its own bytes of the block, and the index off the tail bytes only. -/
theorem counterBlocksRepeatOnlyForEqualOperands : Obligations.CounterBlocksRepeatOnlyForEqualOperands := by
  refine ⟨fun d₁ d₂ dev₁ dev₂ f₁ f₂ i₁ i₂ => ⟨ctrblk_inj, ?_⟩, fun d dev f i j k hk => ?_⟩
  · rintro ⟨rfl, rfl, rfl, rfl⟩
    rfl
  · exact purposeBlock_getElem_of_lt _ d dev f _ _ _ _ hk

end Sys2Proof.Proofs
end

section
/-! Proofs of the statements of 42_stream_cipher.md: STREAM byte by byte and twice (R130 to R132), its block index
(R135), and the number of calls of `E` of each command (R136, R157, R256). -/

namespace Sys2Proof.Proofs

open Sys2Proof.Machine Sys2Proof.Laws

/-! ### STREAM (R130, R132, R135) -/

/-- A byte of a block, read off the list of its bytes. -/
theorem toList_getD_block (b : Block128) {k : Nat} (hk : k < 16) : b.toList.getD k 0 = b[k] := by
  rw [List.getD_eq_getElem _ _ (by rwa [Vector.length_toList]), Vector.getElem_toList]

/-- Settles O43: the law of STREAM's bytes, with the byte of the keystream block read as a byte of its list. -/
theorem streamByteByByte : Obligations.StreamByteByByte := by
  refine fun E K d dev fcnt buf => ⟨stream_length .., fun j hj => ?_⟩
  have hstream : j < (stream E K d dev fcnt buf).length := by rwa [stream_length]
  rw [List.getD_eq_getElem _ _ hstream, List.getD_eq_getElem _ _ hj, stream_getElem,
    toList_getD_block _ (Nat.mod_lt j (by decide))]
  rfl

/-- Settles O44: the two passes use the same keystream. -/
theorem streamTwiceGivesTheBufferBack : Obligations.StreamTwiceGivesTheBufferBack := stream_stream

theorem ceilBlocks_mono {m n : Nat} (h : m ≤ n) : ceilBlocks m ≤ ceilBlocks n :=
  Nat.div_le_div_right (Nat.add_le_add_right h 15)

/-- Block indices below 65536 are told apart by the index field of the counter block (R135). -/
theorem ofNat_half_inj {i j : Nat} (hi : i < 65536) (hj : j < 65536) (h : BitVec.ofNat 16 i = BitVec.ofNat 16 j) :
    i = j := by
  have hmod : i % 65536 = j % 65536 := by simpa using congrArg BitVec.toNat h
  rwa [Nat.mod_eq_of_lt hi, Nat.mod_eq_of_lt hj] at hmod

/-- Settles O45: 242 bytes are 16 blocks and 16 × 65536 bytes are 65536, so that an index below the number of blocks
fits its 16 bits. -/
theorem streamNeverWrapsTheIndex : Obligations.StreamNeverWrapsTheIndex := by
  refine ⟨fun n hn => ceilBlocks_mono hn, fun n i j hn hi hj h => ?_,
    fun E K d dev fcnt buf => ⟨fun hfits => ?_, fun hlong => ?_⟩⟩
  · have hblocks : ceilBlocks n ≤ 65536 := ceilBlocks_mono hn
    exact ofNat_half_inj (hi.trans_le hblocks) (hj.trans_le hblocks) h
  · exact if_pos hfits
  · exact if_neg (Nat.not_le_of_lt hlong)

/-! ### The number of calls of `E` (R256) -/

@[simp] theorem cipherCalls_nil : cipherCalls [] = 0 := rfl

@[simp] theorem cipherCalls_append (a b : List UnitOp) : cipherCalls (a ++ b) = cipherCalls a + cipherCalls b :=
  List.count_append

/-- A unit operation that is not a call of `E` does not count. -/
theorem cipherCalls_cons_of_ne {op : UnitOp} (h : op ≠ .cipher) (ops : List UnitOp) :
    cipherCalls (op :: ops) = cipherCalls ops :=
  List.count_cons_of_ne h

/-- `n` blocks, of the keystream or of the MAC, make `n` calls (R136, R157). -/
theorem cipherCalls_blocks {op : UnitOp} (h : op ≠ .cipher) (n : Nat) :
    cipherCalls (List.replicate n [op, .cipher]).flatten = n := by
  induction n with
  | zero => rfl
  | succ n ih =>
    have hone : cipherCalls [op, .cipher] = 1 := cipherCalls_cons_of_ne h _
    rw [List.replicate_succ, List.flatten_cons, cipherCalls_append, ih, hone, Nat.add_comm]

theorem cipherCalls_chainOps (n len : Nat) : cipherCalls (chainOps n len) = n + 1 := by
  rw [chainOps, cipherCalls_append, cipherCalls_blocks UnitOp.noConfusion, cipherCalls_cons_of_ne UnitOp.noConfusion]
  rfl

/-- The subkey call of CMAC (R157). -/
theorem cipherCalls_subkeyOps (mode : MacMode) : cipherCalls (subkeyOps mode) = if mode = .cmac then 1 else 0 := by
  cases mode <;> rfl

/-- The tag over `B0`, the header and `N` bytes of ciphertext: one call for each of the `ceil((25 + N)/16)` blocks, and
the subkey call (R157). -/
theorem cipherCalls_tagOps (cfg : Config) (m n : Nat) :
    cipherCalls (tagOps cfg m (9 + n)) = ceilBlocks (25 + n) + if cfg.macMode = .cmac then 1 else 0 := by
  have hblocks : (16 + (9 + n) - 1) / 16 + 1 = ceilBlocks (25 + n) := by
    rw [ceilBlocks]
    omega
  rw [tagOps, cipherCalls_append, cipherCalls_append, cipherCalls_append, cipherCalls_subkeyOps, cipherCalls_chainOps,
    hblocks, cipherCalls_cons_of_ne UnitOp.noConfusion, cipherCalls_cons_of_ne UnitOp.noConfusion, cipherCalls_nil,
    Nat.zero_add, Nat.add_zero, Nat.add_comm]

/-- The checks of a frame that is long enough make the calls of its tag, and TAGCMP makes none (R256). -/
theorem cipherCalls_verifyOps {cfg : Config} {len : Nat} (h : minFrame cfg.tagLen ≤ len) :
    cipherCalls (verifyOps cfg len) =
      ceilBlocks (25 + (len - 9 - tagLength cfg.tagLen)) + if cfg.macMode = .cmac then 1 else 0 := by
  have hmsg : len - tagLength cfg.tagLen = 9 + (len - 9 - tagLength cfg.tagLen) := by
    rw [minFrame, headerLen] at h
    omega
  have hcmp : cipherCalls (List.replicate (tagLength cfg.tagLen) UnitOp.tagByte) = 0 := by
    rw [cipherCalls, List.count_replicate]
    rfl
  rw [verifyOps, cipherCalls_append, cipherCalls_cons_of_ne UnitOp.noConfusion, hcmp, Nat.add_zero, hmsg,
    cipherCalls_tagOps]

theorem cipherCalls_sealFrameT (cfg : Config) (d : Direction) (ka kn : Key128) (h : Header) (p : Bytes) :
    cipherCalls (sealFrameT cfg d ka kn h p).ops =
      ceilBlocks p.length + ceilBlocks (25 + p.length) + if cfg.macMode = .cmac then 1 else 0 := by
  rw [sealFrameT_ops, cipherCalls_append, cipherCalls_blocks UnitOp.noConfusion, cipherCalls_tagOps, Nat.add_assoc]

/-- The endings of DECODE with their work (R190, R196, R255): an error before the tag is made, a tag that does not
match, or the results and their keystream blocks. -/
theorem openFrameT_endings (cfg : Config) (d : Direction) (ka kn : Key128) (f : Bytes) :
    (∃ e, e ≠ .authenticationFailed ∧ openFrame cfg d ka kn f = .error e ∧ (openFrameT cfg d ka kn f).ops = []) ∨
    (minFrame cfg.tagLen ≤ f.length ∧ openFrame cfg d ka kn f = .error .authenticationFailed ∧
      (openFrameT cfg d ka kn f).ops = verifyOps cfg f.length) ∨
    (minFrame cfg.tagLen ≤ f.length ∧ openFrame cfg d ka kn f = .ok (reported cfg d ka f) ∧
      (openFrameT cfg d ka kn f).ops =
        verifyOps cfg f.length ++ keystreamOps (ceilBlocks (f.length - 9 - tagLength cfg.tagLen))) := by
  rw [openFrame_eq, openFrameT_ops]
  by_cases hlen : f.length < minFrame cfg.tagLen
  · rw [if_pos hlen, if_pos hlen]
    exact .inl ⟨_, ErrorCode.noConfusion, rfl, rfl⟩
  rw [if_neg hlen, if_neg hlen]
  by_cases hmarker : f.getD 0 0 ≠ cfg.marker
  · rw [if_pos hmarker, if_pos hmarker]
    exact .inl ⟨_, ErrorCode.noConfusion, rfl, rfl⟩
  rw [if_neg hmarker, if_neg hmarker]
  by_cases htag : expectedTag cfg d kn f = f.drop (f.length - tagLength cfg.tagLen)
  · rw [if_pos htag, if_pos htag]
    exact .inr (.inr ⟨Nat.le_of_not_lt hlen, rfl, rfl⟩)
  · rw [if_neg htag, if_neg htag, List.append_nil]
    exact .inr (.inl ⟨Nat.le_of_not_lt hlen, rfl, rfl⟩)

/-- The work of an ENCODE whose required set is written (R185, R186). -/
theorem encodeRunT_ops_of_some {d : Direction} {s : State} {o : EncodeOperands} (hf : s.status.fault = none)
    (ho : encodeOperands s = some o) :
    (encodeRunT d s).ops = if o.plen > maxPayload s.config.tagLen then []
      else (sealFrameT s.config d o.appkey o.nwkkey o.header o.payload).ops := by
  rw [encodeRunT, faulted_eq_false.2 hf, ho]
  simp only [Bool.false_eq_true, if_false]
  split <;> rfl

/-- The work of a DECODE whose required set is written (R190). -/
theorem decodeRunT_ops_of_some {d : Direction} {s : State} {o : DecodeOperands} (hf : s.status.fault = none)
    (ho : decodeOperands s = some o) :
    (decodeRunT d s).ops = (openFrameT s.config d o.appkey o.nwkkey o.wire).ops := by
  rw [decodeRunT, faulted_eq_false.2 hf, ho]
  rfl

/-- "never more than 34": the payload of a frame has at most 242 bytes (R256). -/
theorem codecCalls_le {n : Nat} (h : n ≤ 242) (mode : MacMode) :
    ceilBlocks n + ceilBlocks (25 + n) + (if mode = .cmac then 1 else 0) ≤ 34 := by
  have hstream : ceilBlocks n ≤ 16 := ceilBlocks_mono h
  have hmac : ceilBlocks (25 + n) ≤ 17 := ceilBlocks_mono (Nat.add_le_add_left h 25)
  split <;> omega

theorem maxPayload_le (t : TagLen) : maxPayload t ≤ 242 := by
  cases t <;> decide

/-- The payload of a frame DECODE reads has at most 242 bytes. -/
theorem wire_payload_le {s : State} {o : DecodeOperands} (ho : decodeOperands s = some o) (t : TagLen) :
    o.wire.length - 9 - tagLength t ≤ 242 := by
  obtain ⟨l, -, hl⟩ := wire_length ho
  have hmax := l.isLt
  have htag := tagLength_pos t
  omega

/-- The calls of an ENCODE (R256). -/
theorem cipherCalls_encodeRunT {d : Direction} {s : State} {o : EncodeOperands} (hf : s.status.fault = none)
    (ho : encodeOperands s = some o) :
    cipherCalls (encodeRunT d s).ops = if o.plen > maxPayload s.config.tagLen then 0
      else ceilBlocks o.plen + ceilBlocks (25 + o.plen) + if s.config.macMode = .cmac then 1 else 0 := by
  rw [encodeRunT_ops_of_some hf ho]
  split
  · rfl
  next hn => rw [cipherCalls_sealFrameT, payload_length ho (Nat.le_of_not_lt hn)]

/-- Settles O57: ENCODE makes the calls of its keystream and of its tag, or none; DECODE makes those of its tag once the
length and the Marker are right, and those of the keystream once the tag is. -/
theorem cipherCallCounts : Obligations.CipherCallCounts := by
  refine ⟨fun d s o hf ho => ⟨cipherCalls_encodeRunT hf ho, ?_⟩, fun d s o hf ho => ?_⟩
  · rw [cipherCalls_encodeRunT hf ho]
    split
    · exact Nat.zero_le 34
    next hn => exact codecCalls_le ((Nat.le_of_not_lt hn).trans (maxPayload_le _)) _
  · have hmax := codecCalls_le (wire_payload_le ho s.config.tagLen) s.config.macMode
    rw [decodeRunT_ops_of_some hf ho, decodeRunT_val_of_some hf ho]
    rcases openFrameT_endings s.config d o.appkey o.nwkkey o.wire with
      ⟨e, he, hr, hops⟩ | ⟨hlen, hr, hops⟩ | ⟨hlen, hr, hops⟩ <;> rw [hr, hops]
    · cases e with
      | authenticationFailed => exact absurd rfl he
      | _ => exact ⟨rfl, Nat.zero_le 34⟩
    · rw [cipherCalls_verifyOps hlen]
      exact ⟨rfl, by omega⟩
    · rw [cipherCalls_append, cipherCalls_verifyOps hlen, keystreamOps, cipherCalls_blocks UnitOp.noConfusion]
      exact ⟨rfl, by omega⟩

end Sys2Proof.Proofs
end

section
/-! Proofs of the statements of 44_mac_engine.md: doubling as arithmetic (R153), MAC16 as a chain over its blocks (R151,
R152, R154, R155), the last block of the codec (R156), and TAGCMP (R165, R166). -/

namespace Sys2Proof.Proofs

open Sys2Proof.Machine Sys2Proof.Laws

/-! ### Doubling (R153) -/

/-- The leading `n` bytes of a block read as a number, byte 0 the most significant (R53, R153). -/
def leadingValue (b : Block128) (n : Nat) : Nat := (b.toList.take n).foldl (fun v x => v * 256 + x.toNat) 0

/-- All 16 bytes make the number of the block. -/
theorem leadingValue_sixteen (b : Block128) : leadingValue b 16 = blockValue b := by
  rw [leadingValue, blockValue, List.take_of_length_le (Nat.le_of_eq b.length_toList)]

@[simp] theorem leadingValue_zero (b : Block128) : leadingValue b 0 = 0 := rfl

theorem leadingValue_succ (b : Block128) {n : Nat} (h : n < 16) :
    leadingValue b (n + 1) = leadingValue b n * 256 + b[n].toNat := by
  rw [leadingValue, List.take_succ_eq_append_getElem (by rwa [Vector.length_toList]), List.foldl_append]
  rfl

/-- The most significant byte of the number is byte 0. -/
theorem leadingValue_succ_div (b : Block128) {n : Nat} (h : n < 16) : leadingValue b (n + 1) / 256 ^ n = b[0].toNat := by
  induction n with
  | zero => simp [leadingValue_succ]
  | succ n ih =>
    have hbyte := b[n + 1].isLt
    rw [leadingValue_succ b h, Nat.pow_succ', ← Nat.div_div_eq_div_mul, ← ih (Nat.lt_of_succ_lt h)]
    congr 1
    omega

/-- The top bit of the number is the top bit of byte 0. -/
theorem two_pow_127_le_blockValue_iff (b : Block128) : 2 ^ 127 ≤ blockValue b ↔ 0x80 ≤ b[0].toNat := by
  rw [← leadingValue_succ_div b (n := 15) (by decide), leadingValue_sixteen, Nat.le_div_iff_mul_le (by decide)]
  rfl

/-- A byte moved up by one, with the bit that comes in from the byte below it. -/
theorem shiftLeft_or_shiftRight_toNat (x y : Byte) :
    (x <<< 1 ||| y >>> 7).toNat = 2 * x.toNat % 256 + y.toNat / 128 := by
  have hy : y.toNat / 128 < 2 ^ 1 := Nat.div_lt_of_lt_mul y.isLt
  have hx : (x <<< 1).toNat = 2 ^ 1 * (x.toNat % 128) := by
    rw [BitVec.toNat_shiftLeft, Nat.shiftLeft_eq]
    omega
  rw [BitVec.toNat_or, BitVec.toNat_ushiftRight, Nat.shiftRight_eq_div_pow, hx, ← Nat.two_pow_add_eq_or_of_lt hy]
  omega

theorem dbl_getElem_of_lt (b : Block128) {k : Nat} (h : k < 15) : (dbl b)[k] = b[k] <<< 1 ||| b[k + 1] >>> 7 :=
  (mkBlock_getElem _ k (by omega)).trans (dif_pos h)

theorem dbl_getElem_fifteen (b : Block128) :
    (dbl b)[15] = b[15] <<< 1 ^^^ (if 0x80 ≤ b[0].toNat then 0x87 else 0) :=
  mkBlock_getElem _ 15 (by decide)

/-- The arithmetic of one byte: doubling carries the top bit of byte `x` into the bytes `v` above it. -/
theorem double_append_byte (v x c m : Nat) (hc : c < 2) :
    (2 * (v * 256 + x) + c) % (m * 256) = (2 * v + x / 128) % m * 256 + (2 * x % 256 + c) := by
  have hdiv : (2 * (v * 256 + x) + c) / 256 = 2 * v + x / 128 := by omega
  have hmod : (2 * (v * 256 + x) + c) % 256 = 2 * x % 256 + c := by omega
  rw [Nat.mul_comm m, Nat.mod_mul, hdiv, hmod]
  omega

/-- Before its last byte `dbl` is the doubled number with the bit that comes in from the next byte. -/
theorem leadingValue_dbl (b : Block128) {n : Nat} (h : n < 16) :
    leadingValue (dbl b) n = (2 * leadingValue b n + b[n].toNat / 128) % 256 ^ n := by
  induction n with
  | zero => exact (Nat.mod_one _).symm
  | succ n ih =>
    have hcarry : b[n + 1].toNat / 128 < 2 := Nat.div_lt_of_lt_mul b[n + 1].isLt
    rw [leadingValue_succ _ (by omega), leadingValue_succ _ (by omega), ih (by omega), dbl_getElem_of_lt b (by omega),
      shiftLeft_or_shiftRight_toNat, Nat.pow_succ, double_append_byte _ _ _ _ hcarry]

/-- Exclusive or with a byte changes the last byte of a number only. -/
theorem append_byte_xor (v x c : Nat) (hx : x < 256) (hc : c < 256) : (v * 256 + x) ^^^ c = v * 256 + (x ^^^ c) := by
  have hdiv : ((v * 256 + x) ^^^ c) / 2 ^ 8 = v := by
    have hv : (v * 256 + x) / 2 ^ 8 = v := by omega
    rw [Nat.xor_div_two_pow, hv, Nat.div_eq_of_lt hc, Nat.xor_zero]
  have hmod : ((v * 256 + x) ^^^ c) % 2 ^ 8 = x ^^^ c := by
    have hx' : (v * 256 + x) % 2 ^ 8 = x := by omega
    rw [Nat.xor_mod_two_pow, hx', Nat.mod_eq_of_lt hc]
  omega

/-- Doubling modulo 2^128, and the reduction by 0x87 (R153). -/
theorem blockValue_dbl (b : Block128) :
    blockValue (dbl b) = (2 * blockValue b % 2 ^ 128) ^^^ (if 0x80 ≤ b[0].toNat then 0x87 else 0) := by
  have hdouble : 2 * blockValue b % 2 ^ 128 =
      (2 * leadingValue b 15 + b[15].toNat / 128) % 256 ^ 15 * 256 + 2 * b[15].toNat % 256 := by
    rw [← leadingValue_sixteen, leadingValue_succ b (by decide)]
    exact double_append_byte _ _ 0 (256 ^ 15) (by decide)
  have hlast : (dbl b)[15].toNat = 2 * b[15].toNat % 256 ^^^ (if 0x80 ≤ b[0].toNat then 0x87 else 0) := by
    rw [dbl_getElem_fifteen, BitVec.toNat_xor, apply_ite BitVec.toNat, BitVec.toNat_shiftLeft, Nat.shiftLeft_eq,
      Nat.mul_comm]
    rfl
  rw [hdouble, append_byte_xor _ _ _ (by omega) (by split <;> decide), ← hlast, ← leadingValue_dbl b (by decide),
    ← leadingValue_succ _ (by decide), leadingValue_sixteen]

/-- Settles O51: with the top bit 0 the doubled number has 128 bits and is not reduced. -/
theorem dblDoublesTheBigEndianNumber : Obligations.DblDoublesTheBigEndianNumber := fun b => by
  simp only [blockValue_dbl, ← two_pow_127_le_blockValue_iff]
  split
  · rfl
  next h => rw [Nat.xor_zero, Nat.mod_eq_of_lt (by omega)]

/-! ### MAC16 as a chain over its blocks (R151 to R155) -/

/-- Over the bytes of full blocks the chain is `Y_k = E(K, Y_(k−1) xor X_k)`; the last block is xored in as prepared
(R151). -/
theorem macChainT_val (E : Key128 → Block128 → Block128) (K : Key128) (prep : Bytes → Block128) (y : Block128)
    (xs : List Block128) (last : Bytes) :
    (macChainT E K prep xs.length y ((xs.map Vector.toList).flatten ++ last)).val =
      E K (xorBlock (xs.foldl (fun y b => E K (xorBlock y b)) y) (prep last)) := by
  induction xs generalizing y with
  | nil => rfl
  | cons b xs ih =>
    rw [List.length_cons, macChainT, List.map_cons, List.flatten_cons, List.append_assoc,
      List.take_left' b.length_toList, List.drop_left' b.length_toList, blockOf_toList]
    exact ih _

theorem flatten_blocks_length (xs : List Block128) : (xs.map Vector.toList).flatten.length = 16 * xs.length := by
  induction xs with
  | nil => rfl
  | cons b xs ih =>
    rw [List.map_cons, List.flatten_cons, List.length_append, ih, Vector.length_toList, List.length_cons, Nat.mul_succ,
      Nat.add_comm]

/-- Cut into blocks with 1 to 16 bytes in the last, the string has the blocks it was made of before the last (R151). -/
theorem blocksBeforeLast_append {xs : List Block128} {last : Bytes} (hlen : last.length ≤ 16)
    (hnil : last = [] → xs = []) :
    blocksBeforeLast ((xs.map Vector.toList).flatten ++ last) = xs.length := by
  rw [blocksBeforeLast, List.length_append, flatten_blocks_length]
  cases last with
  | nil => rw [hnil rfl]; rfl
  | cons x rest =>
    rw [List.length_cons] at hlen ⊢
    omega

/-- Zeros at the end of a short block are the zeros it is padded with anyway (R154, R155). -/
theorem blockOf_append_zeros (s : Bytes) (n : Nat) : blockOf (s ++ List.replicate n 0) = blockOf s := by
  ext k hk
  rw [blockOf_getElem, blockOf_getElem]
  rcases Nat.lt_or_ge k s.length with h | h
  · rw [List.getD_append _ _ _ _ h]
  · rw [List.getD_append_right _ _ _ _ h, List.getD_eq_default _ _ h]
    simp

/-- Settles O52: both modes run the same chain, each with its own last block. -/
theorem macIsTheChainOverItsBlocks : Obligations.MacIsTheChainOverItsBlocks := by
  intro E K xs last hlen hnil x y k1 k2
  have hchain (prep : Bytes → Block128) :
      (macChainT E K prep (blocksBeforeLast x) zeroBlock x).val = E K (xorBlock y (prep last)) := by
    rw [blocksBeforeLast_append hlen hnil]
    exact macChainT_val E K prep zeroBlock xs last
  constructor
  · rw [blockOf_append_zeros]
    exact hchain (cmacLast k1 k2)
  · rw [blockOf_append_zeros]
    exact hchain blockOf

/-! ### The last block of the codec (R156) -/

/-- Settles O53: of `25 + N` bytes the blocks before the last hold `16 * ((24 + N) / 16)`. -/
theorem lastMacBlockOfTheCodec : Obligations.LastMacBlockOfTheCodec := by
  intro x n hx
  have hne : x ≠ [] := List.ne_nil_of_length_pos (by omega)
  rw [blocksBeforeLast, hx]
  exact ⟨hne, by omega, by omega⟩

/-! ### TAGCMP (R165, R166) -/

/-- Settles O54: the accumulated difference is zero for equal tags only, and no byte step is left out. -/
theorem tagcmpDecidesEqualityInFixedWork : Obligations.TagcmpDecidesEqualityInFixedWork := fun t a b ha hb =>
  ⟨tagcmp_iff t a b ha hb, tagcmpT_ops t a b⟩

end Sys2Proof.Proofs
end

section
/-! Proofs of the statements of 45_frame_codec.md: the endings of ENCODE and its frame (R185 to R189), the three checks
of DECODE and its results (R190 to R199), and the two commands together (R181, R200, R201). -/

namespace Sys2Proof.Proofs

open Sys2Proof.Machine Sys2Proof.Laws

/-! ### The endings of ENCODE (R185, R214, R219) -/

/-- An ENCODE whose required set is not written faults (R219). -/
theorem exec_encode_unwritten {d : Direction} {s : State} (hf : s.status.fault = none) (ho : encodeOperands s = none) :
    exec (encodeInstr d) s = .next (takeFault .unwrittenOperand s) := by
  rw [exec_eq, runOf_encodeInstr, encodeRunT, faulted_eq_false.2 hf, ho]
  rfl

/-- An ENCODE of a payload that is too large reports it (R186). -/
theorem exec_encode_tooLarge {d : Direction} {s : State} {o : EncodeOperands} (hf : s.status.fault = none)
    (ho : encodeOperands s = some o) (hn : maxPayload s.config.tagLen < o.plen) :
    exec (encodeInstr d) s = .next (raiseError .payloadTooLarge s) := by
  rw [exec_eq, runOf_encodeInstr, encodeRunT_val_of_some hf ho, if_pos hn]
  rfl

/-- Any other ENCODE writes its frame (R185). -/
theorem exec_encode_framed {d : Direction} {s : State} {o : EncodeOperands} (hf : s.status.fault = none)
    (ho : encodeOperands s = some o) (hn : o.plen ≤ maxPayload s.config.tagLen) :
    exec (encodeInstr d) s = .next (writeFrame (sealFrame s.config d o.appkey o.nwkkey o.header o.payload) s) := by
  rw [exec_eq, runOf_encodeInstr, encodeRunT_val_of_some hf ho, if_neg hn.not_gt]
  rfl

/-- Everything an ENCODE can do (R185, R214): nothing while FAULT is 1, the fault of an unwritten operand,
PayloadTooLarge, or its frame. -/
theorem exec_encode_cases {d : Direction} {s t : State} (h : exec (encodeInstr d) s = .next t) :
    (s.status.fault ≠ none ∧ t = s) ∨
    (s.status.fault = none ∧ encodeOperands s = none ∧ t = takeFault .unwrittenOperand s) ∨
    (s.status.fault = none ∧ ∃ o, encodeOperands s = some o ∧
      ((maxPayload s.config.tagLen < o.plen ∧ t = raiseError .payloadTooLarge s) ∨
       (o.plen ≤ maxPayload s.config.tagLen ∧
        t = writeFrame (sealFrame s.config d o.appkey o.nwkkey o.header o.payload) s))) := by
  by_cases hf : s.status.fault = none
  · refine .inr ?_
    cases ho : encodeOperands s with
    | none => exact .inl ⟨hf, rfl, Host.Outcome.next.inj (h.symm.trans (exec_encode_unwritten hf ho))⟩
    | some o =>
      refine .inr ⟨hf, o, rfl, ?_⟩
      rcases Nat.lt_or_ge (maxPayload s.config.tagLen) o.plen with hn | hn
      · exact .inl ⟨hn, Host.Outcome.next.inj (h.symm.trans (exec_encode_tooLarge hf ho hn))⟩
      · exact .inr ⟨hn, Host.Outcome.next.inj (h.symm.trans (exec_encode_framed hf ho hn))⟩
  · rw [exec_eq, runOf_faulted _ hf] at h
    exact .inl ⟨hf, (Host.Outcome.next.inj h).symm⟩

/-- PLEN is the length ENCODE checks (R186). -/
theorem plen_of_encodeOperands {s : State} {o : EncodeOperands} {n : Byte} (ho : encodeOperands s = some o)
    (hn : s.plen = some n) : o.plen = n.toNat := by
  obtain ⟨-, -, -, -, -, -, ⟨n', hn', hon⟩, -⟩ := (encodeOperands_eq_some s o).1 ho
  rw [hon, Option.some.inj (hn'.symm.trans hn)]

/-- The frame an ENCODE makes has `9 + PLEN + TAG_LEN` bytes (R184). -/
theorem sealFrame_length_of_plen {d : Direction} {s : State} {o : EncodeOperands} {n : Byte}
    (ho : encodeOperands s = some o) (hmax : o.plen ≤ maxPayload s.config.tagLen) (hn : s.plen = some n) :
    (sealFrame s.config d o.appkey o.nwkkey o.header o.payload).length = 9 + n.toNat + tagLength s.config.tagLen := by
  rw [sealFrame_length, payload_length ho hmax, plen_of_encodeOperands ho hn]

/-- Settles O7: the registers make up the required set, and the frame of R185 is the one ENCODE writes. -/
theorem encodeWritesTheFrame : Obligations.EncodeWritesTheFrame := by
  intro d s ka kn dev fcnt fctrl fport n hf hka hkn hdev hfcnt hfctrl hfport hplen
  have hops (p : Bytes) (hp : payloadOperand s n.toNat = some p) :
      encodeOperands s = some ⟨ka, kn, ⟨dev, fctrl, fcnt, fport⟩, n.toNat, p⟩ :=
    (encodeOperands_eq_some _ _).2 ⟨hka, hkn, hdev, hfcnt, hfctrl, hfport, ⟨n, hplen, rfl⟩, hp⟩
  refine ⟨fun p hn hp => ?_, fun hn => exec_encode_tooLarge hf (hops [] (if_neg hn.not_ge)) hn⟩
  have hlen : p.length = n.toNat := readBytes_length hp
  have htag := tagLength_le s.config.tagLen
  refine ⟨by omega, ?_⟩
  rw [exec_encode_framed hf (hops p ((if_pos hn).trans hp)) hn, writeFrame, sealFrame_length, sealFrame_eq, tag_eq,
    hlen]
  rfl

/-- Settles O8: which of the two endings it is, is the comparison of PLEN with MAX_PAYLOAD. -/
theorem encodeSizeCheckIsExact : Obligations.EncodeSizeCheckIsExact := by
  intro d s t n hf hsome hplen h
  obtain ⟨o, ho⟩ := Option.isSome_iff_exists.1 hsome
  have hon := plen_of_encodeOperands ho hplen
  have htag := tagLength_le s.config.tagLen
  rcases Nat.lt_or_ge (maxPayload s.config.tagLen) o.plen with hn | hn
  · obtain rfl := Host.Outcome.next.inj (h.symm.trans (exec_encode_tooLarge hf ho hn))
    have hcalls : cipherCalls (encodeRunT d s).ops = 0 := (cipherCalls_encodeRunT hf ho).trans (if_pos hn)
    rw [hon, maxPayload, headerLen] at hn
    exact ⟨iff_of_true rfl hn, iff_of_false nofun hn.not_ge, fun h => absurd h hn.ne', fun _ => ⟨rfl, hcalls⟩⟩
  · obtain rfl := Host.Outcome.next.inj (h.symm.trans (exec_encode_framed hf ho hn))
    have hlen := sealFrame_length_of_plen (d := d) ho hn hplen
    rw [hon, maxPayload, headerLen] at hn
    refine ⟨iff_of_false nofun hn.not_gt, iff_of_true rfl hn, fun hmax => ?_, fun h => absurd h hn.not_gt⟩
    have hfull : 9 + n.toNat + tagLength s.config.tagLen = 255 := by omega
    rw [writeFrame_flen, hlen, hfull]
    rfl

/-- Settles O9: of the endings of ENCODE only the one with a frame writes anything but STATUS, and it writes as many
bytes of FBUF as the frame has. -/
theorem encodeLeavesEverythingElse : Obligations.EncodeLeavesEverythingElse := by
  intro d s t h
  rcases exec_encode_cases h with ⟨-, rfl⟩ | ⟨hf, -, rfl⟩ | ⟨hf, o, ho, ⟨-, rfl⟩ | ⟨hn, rfl⟩⟩
  · simp
  · simp [hf]
  · simp
  · have hfbuf : ∀ n : Byte, s.plen = some n → ∀ a, 9 + n.toNat + tagLength s.config.tagLen ≤ a →
        (writeFrame (sealFrame s.config d o.appkey o.nwkkey o.header o.payload) s).fbuf.read a = s.fbuf.read a :=
      fun n hplen a ha =>
        read_writeBytes_outside (.inr (by rw [sealFrame_length_of_plen ho hn hplen, Nat.zero_add]; exact ha))
    have hstored : ¬ (s.status.fault ≠ none ∨ encodeOperands s = none ∨
        ∃ n : Byte, s.plen = some n ∧ n.toNat > maxPayload s.config.tagLen) := by
      rintro (hne | hnone | ⟨n, hplen, hlarge⟩)
      · exact hne hf
      · exact absurd (ho.symm.trans hnone) (Option.some_ne_none o)
      · rw [← plen_of_encodeOperands ho hplen] at hlarge
        exact hn.not_gt hlarge
    exact ⟨rfl, rfl, rfl, rfl, rfl, rfl, rfl, rfl, rfl, rfl, rfl, .inl rfl, hfbuf, fun hn => absurd hn hstored⟩

/-! ### The empty payload (R188, R199) -/

/-- The frame of an empty payload is the header and its tag (R188). -/
theorem sealFrame_nil (cfg : Config) (d : Direction) (ka kn : Key128) (h : Header) :
    sealFrame cfg d ka kn h [] =
      headerBytes cfg.marker h ++ tag cfg kn d h.dev h.fcnt headerLen (headerBytes cfg.marker h) := by
  have hstream : stream (blockCipher cfg.cipher) ka d h.dev h.fcnt [] = [] :=
    List.eq_nil_of_length_eq_zero (stream_length ..)
  rw [sealFrame_eq, hstream, List.append_nil]
  rfl

theorem ctrblk_not_mem_subkeyOps (mode : MacMode) : UnitOp.ctrblk ∉ subkeyOps mode := by
  cases mode <;> decide

theorem ctrblk_not_mem_chainOps (n len : Nat) : UnitOp.ctrblk ∉ chainOps n len := by
  simp [chainOps]

/-- Tag generation builds no counter block (R255). -/
theorem ctrblk_not_mem_tagOps (cfg : Config) (n len : Nat) : UnitOp.ctrblk ∉ tagOps cfg n len := by
  simp [tagOps, ctrblk_not_mem_subkeyOps, ctrblk_not_mem_chainOps]

/-- Nor do the checks of DECODE (R195, R255). -/
theorem ctrblk_not_mem_verifyOps (cfg : Config) (len : Nat) : UnitOp.ctrblk ∉ verifyOps cfg len := by
  simp [verifyOps, ctrblk_not_mem_tagOps]

/-- An empty payload has no keystream block (R133). -/
theorem ctrblk_not_mem_sealFrameT_nil (cfg : Config) (d : Direction) (ka kn : Key128) (h : Header) :
    UnitOp.ctrblk ∉ (sealFrameT cfg d ka kn h []).ops := by
  rw [sealFrameT_ops]
  exact ctrblk_not_mem_tagOps _ _ _

/-- Settles O10: no byte of PBUF is an operand, and the frame is the header with its tag. -/
theorem encodeOfAnEmptyPayload : Obligations.EncodeOfAnEmptyPayload := by
  intro d s ka kn dev fcnt fctrl fport hf hka hkn hdev hfcnt hfctrl hfport hplen m
  have hpay : payloadOperand s 0 = some [] := if_pos (Nat.zero_le _)
  have ho : encodeOperands s = some ⟨ka, kn, ⟨dev, fctrl, fcnt, fport⟩, 0, []⟩ :=
    (encodeOperands_eq_some _ _).2 ⟨hka, hkn, hdev, hfcnt, hfctrl, hfport, ⟨0, hplen, rfl⟩, hpay⟩
  refine ⟨_, exec_encode_framed hf ho (Nat.zero_le _), ?_, ?_, ?_, ?_⟩
  · rw [writeFrame_status, Status.withCode, hf]
  · rw [writeFrame_flen, sealFrame_length]
    rfl
  · have hread := readBytes_writeBytes s.fbuf 0 (sealFrame s.config d ka kn ⟨dev, fctrl, fcnt, fport⟩ [])
    rw [sealFrame_length, sealFrame_nil] at hread
    rw [writeFrame_fbuf, sealFrame_nil]
    exact hread
  · rw [encodeRunT_ops_of_some hf ho, if_neg (Nat.zero_le _).not_gt]
    exact ctrblk_not_mem_sealFrameT_nil _ _ _ _ _

/-! ### The checks of DECODE and its results (R190 to R197) -/

section Checks

variable {cfg : Config} {d : Direction} {ka kn : Key128} {f : Bytes}

theorem openFrame_tooShort (hlen : f.length < minFrame cfg.tagLen) :
    openFrame cfg d ka kn f = .error .frameTooShort := by
  rw [openFrame_eq, if_pos hlen]

theorem openFrame_badMarker (hlen : minFrame cfg.tagLen ≤ f.length) (hmarker : f.getD 0 0 ≠ cfg.marker) :
    openFrame cfg d ka kn f = .error .badMarker := by
  rw [openFrame_eq, if_neg hlen.not_gt, if_pos hmarker]

theorem openFrame_tagMismatch (hlen : minFrame cfg.tagLen ≤ f.length) (hmarker : f.getD 0 0 = cfg.marker)
    (htag : expectedTag cfg d kn f ≠ f.drop (f.length - tagLength cfg.tagLen)) :
    openFrame cfg d ka kn f = .error .authenticationFailed := by
  rw [openFrame_eq, if_neg hlen.not_gt, if_neg (not_not_intro hmarker), if_neg htag]

theorem openFrame_tagMatch (hlen : minFrame cfg.tagLen ≤ f.length) (hmarker : f.getD 0 0 = cfg.marker)
    (htag : expectedTag cfg d kn f = f.drop (f.length - tagLength cfg.tagLen)) :
    openFrame cfg d ka kn f = .ok (reported cfg d ka f) := by
  rw [openFrame_eq, if_neg hlen.not_gt, if_neg (not_not_intro hmarker), if_pos htag]

/-- A frame that fails before its tag is looked at costs no unit operation (R255). -/
theorem openFrameT_ops_of_error {e : ErrorCode} (he : e ≠ .authenticationFailed)
    (h : openFrame cfg d ka kn f = .error e) : (openFrameT cfg d ka kn f).ops = [] := by
  rcases openFrameT_endings cfg d ka kn f with ⟨-, -, -, hops⟩ | ⟨-, hr, -⟩ | ⟨-, hr, -⟩
  · exact hops
  · exact absurd (Except.error.inj (h.symm.trans hr)) he
  · exact absurd (h.symm.trans hr) nofun

/-- A frame whose tag does not match costs the checks alone (R195, R255). -/
theorem openFrameT_ops_of_authenticationFailed (h : openFrame cfg d ka kn f = .error .authenticationFailed) :
    (openFrameT cfg d ka kn f).ops = verifyOps cfg f.length := by
  rcases openFrameT_endings cfg d ka kn f with ⟨e, he, hr, -⟩ | ⟨-, -, hops⟩ | ⟨-, hr, -⟩
  · exact absurd (Except.error.inj (hr.symm.trans h)) he
  · exact hops
  · exact absurd (h.symm.trans hr) nofun

/-- The checks do not look at APPKEY (R195). -/
theorem openFrame_error_of_appkey (ka' : Key128) {e : ErrorCode} (h : openFrame cfg d ka kn f = .error e) :
    openFrame cfg d ka' kn f = .error e := by
  rw [openFrame_eq] at h ⊢
  split_ifs at h ⊢ <;> exact h

end Checks

/-- A DECODE whose required set is not written faults (R219). -/
theorem exec_decode_unwritten {d : Direction} {s : State} (hf : s.status.fault = none) (ho : decodeOperands s = none) :
    exec (decodeInstr d) s = .next (takeFault .unwrittenOperand s) := by
  rw [exec_eq, runOf_decodeInstr, decodeRunT, faulted_eq_false.2 hf, ho]
  rfl

/-- A DECODE whose frame fails a check reports it (R190, R196). -/
theorem exec_decode_error {d : Direction} {s : State} {o : DecodeOperands} {e : ErrorCode} (hf : s.status.fault = none)
    (ho : decodeOperands s = some o) (hx : openFrame s.config d o.appkey o.nwkkey o.wire = .error e) :
    exec (decodeInstr d) s = .next (raiseError e s) := by
  rw [exec_eq, runOf_decodeInstr, decodeRunT_val_of_some hf ho, hx]
  rfl

/-- A DECODE that ends in OK had its whole required set and a frame that opens, and wrote what was found (R197). -/
theorem exec_decode_ok {d : Direction} {s t : State} (hf : s.status.fault = none)
    (h : exec (decodeInstr d) s = .next t) (ht : t.status = { fault := none, code := .ok }) :
    ∃ o x, decodeOperands s = some o ∧ openFrame s.config d o.appkey o.nwkkey o.wire = .ok x ∧ t = writeOpened x s := by
  rcases exec_decode_cases h with ⟨hne, -⟩ | ⟨-, -, rfl⟩ | ⟨-, o, ho, ⟨e, -, rfl⟩ | ⟨x, hx, rfl⟩⟩
  · exact absurd hf hne
  · exact absurd (congrArg Status.fault ht) (Option.some_ne_none _)
  · exact absurd (congrArg Status.code ht) Code.noConfusion
  · exact ⟨o, x, ho, hx, rfl⟩

/-- The address of a frame is in its bytes 1 to 4 (R193). -/
theorem devAddrOf_drop_one (f : Bytes) :
    devAddrOf (f.drop 1) = #v[f.getD 1 0, f.getD 2 0, f.getD 3 0, f.getD 4 0] := by
  simp [devAddrOf, List.getD_eq_getElem?_getD]

/-- Two bytes, the low one first, as a number (R14, R27). -/
theorem halfOf_eq_ofNat (lo hi : Byte) : halfOf lo hi = BitVec.ofNat 16 (lo.toNat + 256 * hi.toNat) := by
  have hlo := lo.isLt
  have hhi := hi.isLt
  apply BitVec.eq_of_toNat_eq
  rw [halfOf, toNat_append_eq_add, BitVec.toNat_ofNat, Nat.mod_eq_of_lt (by omega)]
  omega

/-- The tag DECODE expects, from the bytes of a frame with `n` bytes of ciphertext (R190, R194). -/
theorem expectedTag_eq {cfg : Config} {f : Bytes} {n : Nat} (d : Direction) (kn : Key128)
    (hn : f.length - tagLength cfg.tagLen = 9 + n) :
    expectedTag cfg d kn f = trunc cfg.tagLen (mac16 (blockCipher cfg.cipher) cfg.macMode kn
      ((authblk d #v[f.getD 1 0, f.getD 2 0, f.getD 3 0, f.getD 4 0]
        (BitVec.ofNat 16 ((f.getD 6 0).toNat + 256 * (f.getD 7 0).toNat)) (BitVec.ofNat 8 (9 + n))).toList ++
          f.take (9 + n))) := by
  rw [expectedTag, tag_eq, hn, devAddrOf_drop_one, halfOf_eq_ofNat]

/-- Settles O12: the three checks pass, and what DECODE reports is read off the bytes of the frame. -/
theorem decodeReturnsThePlaintext : Obligations.DecodeReturnsThePlaintext := by
  intro d s ka kn l f hf hka hkn hl hw hlen hmarker E n dev fcnt b0 htag
  have ho : decodeOperands s = some ⟨ka, kn, f⟩ := (decodeOperands_eq_some _ _).2 ⟨hka, hkn, l, hl, hw⟩
  have hfl : f.length = l.toNat := readBytes_length hw
  have hcut : f.length - tagLength s.config.tagLen = 9 + n := by omega
  have hmatch : expectedTag s.config d kn f = f.drop (f.length - tagLength s.config.tagLen) := by
    rw [expectedTag_eq d kn hcut, hcut]
    exact htag
  have hopen := openFrame_tagMatch (ka := ka) (hlen.trans_eq hfl.symm) hmarker hmatch
  have hpay := (opened_payload_length hopen).2
  rw [exec_decode_opened hf ho hopen, writeOpened, hpay, reported, devAddrOf_drop_one, halfOf_eq_ofNat, hfl]
  rfl

/-- Settles O13: each failing check is an ending of its own, and the first two cost no unit operation. -/
theorem decodeReportsTheFirstFailingCheck : Obligations.DecodeReportsTheFirstFailingCheck := by
  intro d s ka kn l f hf hka hkn hl hw n dev fcnt b0
  have ho : decodeOperands s = some ⟨ka, kn, f⟩ := (decodeOperands_eq_some _ _).2 ⟨hka, hkn, l, hl, hw⟩
  have hfl : f.length = l.toNat := readBytes_length hw
  have early {e : ErrorCode} (he : e ≠ .authenticationFailed) (hx : openFrame s.config d ka kn f = .error e) :
      exec (decodeInstr d) s = .next { s with status := { s.status with code := .error e } } ∧
      cipherCalls (decodeRunT d s).ops = 0 := by
    refine ⟨exec_decode_error hf ho hx, ?_⟩
    rw [decodeRunT_ops_of_some hf ho, openFrameT_ops_of_error he hx, cipherCalls_nil]
  refine ⟨fun hshort => ?_, fun hlen hmarker => ?_, fun hlen hmarker htag => ?_⟩
  · exact early nofun (openFrame_tooShort (hfl.trans_lt hshort))
  · exact early nofun (openFrame_badMarker (hlen.trans_eq hfl.symm) hmarker)
  · have hcut : f.length - tagLength s.config.tagLen = 9 + n := by omega
    refine exec_decode_error hf ho (openFrame_tagMismatch (hlen.trans_eq hfl.symm) hmarker ?_)
    rw [expectedTag_eq d kn hcut, hcut]
    exact htag

/-- Settles O14: the ending is the error of the tag, which costs the checks alone and does not depend on APPKEY. -/
theorem noDecryptionBeforeAuthentication : Obligations.NoDecryptionBeforeAuthentication := by
  intro d s t hf h ht
  rcases exec_decode_cases h with ⟨hne, -⟩ | ⟨-, -, rfl⟩ | ⟨-, o, ho, ⟨e, hx, rfl⟩ | ⟨x, -, rfl⟩⟩
  · exact absurd hf hne
  · exact absurd (congrArg Status.fault ht) (Option.some_ne_none _)
  · obtain rfl := Code.error.inj (congrArg Status.code ht)
    have hops : UnitOp.ctrblk ∉ (decodeRunT d s).ops := by
      rw [decodeRunT_ops_of_some hf ho, openFrameT_ops_of_authenticationFailed hx]
      exact ctrblk_not_mem_verifyOps _ _
    refine ⟨hops, rfl, rfl, rfl, rfl, rfl, fun ka => ?_⟩
    obtain ⟨-, hkn, hwire⟩ := (decodeOperands_eq_some s o).1 ho
    have ho' : decodeOperands { s with appkey := some ka } = some ⟨ka, o.nwkkey, o.wire⟩ :=
      (decodeOperands_eq_some _ _).2 ⟨rfl, hkn, hwire⟩
    exact exec_decode_error (s := { s with appkey := some ka }) hf ho' (openFrame_error_of_appkey ka hx)
  · exact absurd (congrArg Status.code ht) Code.noConfusion

/-- Settles O16: the payload of such a frame has no bytes. -/
theorem decodeOfAnEmptyPayload : Obligations.DecodeOfAnEmptyPayload := by
  intro d s t l hf hl hmin h ht
  obtain ⟨o, x, ho, hx, rfl⟩ := exec_decode_ok hf h ht
  have hpay : x.payload = [] := by
    refine List.eq_nil_of_length_eq_zero ?_
    rw [opened_payload_length_of_flen ho hx hl, hmin, minFrame, headerLen]
    omega
  rw [writeOpened_plen, writeOpened_pbuf, hpay]
  exact ⟨rfl, rfl⟩

/-! ### DECODE again (R198) -/

/-- Writing a byte string a second time changes nothing, in a buffer of canonical form. -/
theorem writeBytes_writeBytes {m : Memory} (hm : m.wf = true) {p : Bytes} (hp : p.length ≤ 255) :
    (m.writeBytes 0 p).writeBytes 0 p = m.writeBytes 0 p := by
  have hfits : 0 + p.length ≤ bufCap := (Nat.zero_add _).trans_le hp
  have hwf := wf_writeBytes p hfits hm
  refine wf_ext _ _ (wf_writeBytes p hfits hwf) hwf fun a => ?_
  rw [read_writeBytes _ 0 a p, read_writeBytes m 0 a p]
  split <;> rfl

/-- Reporting the same results twice is reporting them once. -/
theorem writeOpened_writeOpened {s : State} (hs : s.Inv) {x : Opened} (hx : x.payload.length ≤ 255) :
    writeOpened x (writeOpened x s) = writeOpened x s := by
  rw [writeOpened, writeOpened_pbuf, writeBytes_writeBytes hs.left hx]
  rfl

/-- A payload that DECODE reports fits PBUF (R190). -/
theorem opened_payload_length_le {d : Direction} {s : State} {o : DecodeOperands} {x : Opened}
    (ho : decodeOperands s = some o) (hx : openFrame s.config d o.appkey o.nwkkey o.wire = .ok x) :
    x.payload.length ≤ 255 := by
  rw [(opened_payload_length hx).2]
  exact (wire_payload_le ho s.config.tagLen).trans (by decide)

/-- Settles O17: what DECODE writes is not in its required set, so that the frame opens again, and FCNT is written
over. -/
theorem replayedFrameIsAccepted : Obligations.ReplayedFrameIsAccepted := by
  intro d s t hs hf h ht
  obtain ⟨o, x, ho, hx, rfl⟩ := exec_decode_ok hf h ht
  refine ⟨?_, fun c => exec_decode_opened (r := { s with fcnt := c }) hf ho hx⟩
  rw [exec_decode_opened (r := writeOpened x s) hf ho hx, writeOpened_writeOpened hs (opened_payload_length_le ho hx)]

/-! ### ENCODE and then DECODE (R200, R201) -/

/-- Settles O18: it is the engine of O19 that receives its own frame, with its own keys. -/
theorem encodeThenDecodeGivesTheInputsBack : Obligations.EncodeThenDecodeGivesTheInputsBack := by
  intro d s t hf h ht
  obtain ⟨hcfg, hka, hkn⟩ := exec_sameKeys h
  obtain ⟨u, hu, hok, hfctrl, hfport, hfcnt, hplen, -, hpbuf⟩ := twoEnginesWithTheSameKeysInteroperate d s t t hf h ht
    (congrArg Status.fault ht) hcfg hka hkn rfl fun _ _ _ _ => rfl
  exact ⟨u, hu, hok, hfctrl, hfport, hfcnt, hplen, hpbuf⟩

/-- The tag DECODE expects of the message of a sealed frame is the sender's, whatever tag stands in the frame (R201). -/
theorem expectedTag_sealedMessage_append (cfg : Config) (d : Direction) (ka kn : Key128) (h : Header) (p : Bytes)
    {t : Bytes} (ht : t.length = tagLength cfg.tagLen) :
    expectedTag cfg d kn (sealedMessage cfg d ka h p ++ t) =
      tag cfg kn d h.dev h.fcnt (headerLen + p.length) (sealedMessage cfg d ka h p) := by
  have hdev : devAddrOf ((sealedMessage cfg d ka h p ++ t).drop 1) = h.dev := by
    ext k hk
    interval_cases k <;> rfl
  have hfcnt : halfOf ((sealedMessage cfg d ka h p ++ t).getD 6 0) ((sealedMessage cfg d ka h p ++ t).getD 7 0) =
      h.fcnt :=
    halfOf_lo8_hi8 h.fcnt
  have hcut : (sealedMessage cfg d ka h p ++ t).length - tagLength cfg.tagLen =
      (sealedMessage cfg d ka h p).length := by
    rw [List.length_append, ht, Nat.add_sub_cancel]
  rw [expectedTag, hdev, hfcnt, hcut, List.take_left, sealedMessage_length]

/-- Settles O20: the Marker is checked before the rest of the frame, and a message that is as it was has one tag only. -/
theorem changedMarkerOrTagIsRejected : Obligations.ChangedMarkerOrTagIsRejected := by
  intro cfg d ka kn ka' h p f _ hlen
  rw [sealFrame_length] at hlen
  have hmin : minFrame cfg.tagLen ≤ f.length := by
    rw [hlen, minFrame, headerLen]
    omega
  refine ⟨openFrame_badMarker hmin, fun htake hne => ?_⟩
  rw [take_sealFrame] at htake
  have hsplit : f = sealedMessage cfg d ka h p ++ f.drop (9 + p.length) := by rw [← htake, List.take_append_drop]
  have htail : (f.drop (9 + p.length)).length = tagLength cfg.tagLen := by
    rw [List.length_drop, hlen, Nat.add_sub_cancel_left]
  have hmarker : f.getD 0 0 = cfg.marker := by
    rw [hsplit]
    rfl
  have hcut : f.length - tagLength cfg.tagLen = 9 + p.length := by
    rw [hlen, Nat.add_sub_cancel]
  have hexpected : expectedTag cfg d kn f =
      tag cfg kn d h.dev h.fcnt (headerLen + p.length) (sealedMessage cfg d ka h p) := by
    rw [hsplit]
    exact expectedTag_sealedMessage_append cfg d ka kn h p htail
  refine openFrame_tagMismatch hmin hmarker fun htag => hne ?_
  rw [hexpected, hcut] at htag
  rw [hsplit, ← htag, sealFrame_eq_message_append_tag]

/-! ### The read sets (R181) -/

/-- The parameters and everything ENCODE may read are the same in both engines (R181, R219). -/
structure SameEncodeReadSet (s₁ s₂ : State) : Prop where
  config : s₁.config = s₂.config
  appkey : s₁.appkey = s₂.appkey
  nwkkey : s₁.nwkkey = s₂.nwkkey
  devaddr : s₁.devaddr = s₂.devaddr
  fcnt : s₁.fcnt = s₂.fcnt
  fctrl : s₁.fctrl = s₂.fctrl
  fport : s₁.fport = s₂.fport
  plen : s₁.plen = s₂.plen
  pbuf : ∀ n : Byte, s₁.plen = some n → ∀ k, k < n.toNat → s₁.pbuf.read k = s₂.pbuf.read k

/-- The parameters and everything DECODE may read are the same in both engines (R181, R219). -/
structure SameDecodeReadSet (s₁ s₂ : State) : Prop where
  config : s₁.config = s₂.config
  appkey : s₁.appkey = s₂.appkey
  nwkkey : s₁.nwkkey = s₂.nwkkey
  flen : s₁.flen = s₂.flen
  fbuf : ∀ l : Byte, s₁.flen = some l → ∀ k, k < l.toNat → s₁.fbuf.read k = s₂.fbuf.read k

/-- Two buffers that agree below `n` read alike from offset 0. -/
theorem readBytes_zero_congr {m m' : Memory} {n : Nat} (h : ∀ k, k < n → m.read k = m'.read k) :
    m.readBytes 0 n = m'.readBytes 0 n :=
  readBytes_congr fun k hk => by rw [Nat.zero_add, h k hk]

theorem encodeOperands_congr {s₁ s₂ : State} (h : SameEncodeReadSet s₁ s₂) : encodeOperands s₁ = encodeOperands s₂ := by
  have hpay (n : Byte) (hn : s₁.plen = some n) : payloadOperand s₁ n.toNat = payloadOperand s₂ n.toNat := by
    rw [payloadOperand, payloadOperand, h.config, readBytes_zero_congr (h.pbuf n hn)]
  rw [encodeOperands, encodeOperands, ← h.appkey, ← h.nwkkey, ← h.devaddr, ← h.fcnt, ← h.fctrl, ← h.fport, ← h.plen]
  cases hn : s₁.plen with
  | none => rfl
  | some n => simp only [Option.bind_eq_bind, Option.bind_some, hpay n hn]

theorem decodeOperands_congr {s₁ s₂ : State} (h : SameDecodeReadSet s₁ s₂) : decodeOperands s₁ = decodeOperands s₂ := by
  rw [decodeOperands, decodeOperands, ← h.appkey, ← h.nwkkey, ← h.flen]
  cases hl : s₁.flen with
  | none => rfl
  | some l => simp only [Option.bind_eq_bind, Option.bind_some, readBytes_zero_congr (h.fbuf l hl)]

/-- After the same byte string was written from offset 0 on, two buffers agree on it, as far as a length register of 8
bits reaches. -/
theorem read_writeBytes_congr {m m' : Memory} {p : Bytes} {n : Byte} {k : Nat}
    (hn : some (BitVec.ofNat 8 p.length) = some n) (hk : k < n.toNat) :
    (m.writeBytes 0 p).read k = (m'.writeBytes 0 p).read k := by
  have hkp : k < p.length := by
    rw [← Option.some.inj hn, BitVec.toNat_ofNat] at hk
    exact hk.trans_le (Nat.mod_le _ _)
  rw [read_writeBytes, read_writeBytes, dif_pos ⟨Nat.zero_le k, hkp⟩, dif_pos ⟨Nat.zero_le k, hkp⟩]

section Endings

variable {d : Direction} {s₁ s₂ t₁ t₂ : State}

/-- Two ENCODEs with the same required set end alike (R181): both fault, both report PayloadTooLarge, or both write the
same frame. -/
theorem exec_encode_alike (hf₁ : s₁.status.fault = none) (hf₂ : s₂.status.fault = none) (h : SameEncodeReadSet s₁ s₂)
    (h₁ : exec (encodeInstr d) s₁ = .next t₁) (h₂ : exec (encodeInstr d) s₂ = .next t₂) :
    (t₁ = takeFault .unwrittenOperand s₁ ∧ t₂ = takeFault .unwrittenOperand s₂) ∨
    (∃ e, t₁ = raiseError e s₁ ∧ t₂ = raiseError e s₂) ∨
    ∃ f, t₁ = writeFrame f s₁ ∧ t₂ = writeFrame f s₂ := by
  have hops := encodeOperands_congr h
  rcases exec_encode_cases h₁ with ⟨hne, -⟩ | ⟨-, ho, rfl⟩ | ⟨-, o, ho, ⟨hn, rfl⟩ | ⟨hn, rfl⟩⟩
  · exact absurd hf₁ hne
  all_goals rw [hops] at ho
  · obtain rfl := Host.Outcome.next.inj (h₂.symm.trans (exec_encode_unwritten hf₂ ho))
    exact .inl ⟨rfl, rfl⟩
  all_goals rw [h.config] at hn
  · obtain rfl := Host.Outcome.next.inj (h₂.symm.trans (exec_encode_tooLarge hf₂ ho hn))
    exact .inr (.inl ⟨_, rfl, rfl⟩)
  · obtain rfl := Host.Outcome.next.inj (h₂.symm.trans (exec_encode_framed hf₂ ho hn))
    exact .inr (.inr ⟨_, rfl, by rw [h.config]⟩)

/-- Two DECODEs with the same required set end alike (R181): both fault, both report the same error, or both write the
same results. -/
theorem exec_decode_alike (hf₁ : s₁.status.fault = none) (hf₂ : s₂.status.fault = none) (h : SameDecodeReadSet s₁ s₂)
    (h₁ : exec (decodeInstr d) s₁ = .next t₁) (h₂ : exec (decodeInstr d) s₂ = .next t₂) :
    (t₁ = takeFault .unwrittenOperand s₁ ∧ t₂ = takeFault .unwrittenOperand s₂) ∨
    (∃ e, t₁ = raiseError e s₁ ∧ t₂ = raiseError e s₂) ∨
    ∃ x, t₁ = writeOpened x s₁ ∧ t₂ = writeOpened x s₂ := by
  have hops := decodeOperands_congr h
  rcases exec_decode_cases h₁ with ⟨hne, -⟩ | ⟨-, ho, rfl⟩ | ⟨-, o, ho, ⟨e, hx, rfl⟩ | ⟨x, hx, rfl⟩⟩
  · exact absurd hf₁ hne
  all_goals rw [hops] at ho
  · obtain rfl := Host.Outcome.next.inj (h₂.symm.trans (exec_decode_unwritten hf₂ ho))
    exact .inl ⟨rfl, rfl⟩
  all_goals rw [h.config] at hx
  · obtain rfl := Host.Outcome.next.inj (h₂.symm.trans (exec_decode_error hf₂ ho hx))
    exact .inr (.inl ⟨_, rfl, rfl⟩)
  · obtain rfl := Host.Outcome.next.inj (h₂.symm.trans (exec_decode_opened hf₂ ho hx))
    exact .inr (.inr ⟨_, rfl, rfl⟩)

end Endings

/-- Settles O21: the endings are alike, and what they write does not depend on what was there before. -/
theorem resultDependsOnlyOnTheReadSet : Obligations.ResultDependsOnlyOnTheReadSet := by
  constructor
  · intro d s₁ s₂ t₁ t₂ hcfg hf₁ hf₂ hka hkn hdev hfcnt hfctrl hfport hplen hpbuf h₁ h₂
    rcases exec_encode_alike hf₁ hf₂ ⟨hcfg, hka, hkn, hdev, hfcnt, hfctrl, hfport, hplen, hpbuf⟩ h₁ h₂ with
      ⟨rfl, rfl⟩ | ⟨e, rfl, rfl⟩ | ⟨f, rfl, rfl⟩
    · simp [hf₁, hf₂, Status.withFault]
    · simp [hf₁, hf₂, Status.withCode]
    · exact ⟨hf₁.trans hf₂.symm, fun _ => rfl, fun _ => ⟨rfl, fun l hl k hk => read_writeBytes_congr hl hk⟩⟩
  · intro d s₁ s₂ t₁ t₂ hcfg hf₁ hf₂ hka hkn hflen hfbuf h₁ h₂
    rcases exec_decode_alike hf₁ hf₂ ⟨hcfg, hka, hkn, hflen, hfbuf⟩ h₁ h₂ with
      ⟨rfl, rfl⟩ | ⟨e, rfl, rfl⟩ | ⟨x, rfl, rfl⟩
    · simp [hf₁, hf₂, Status.withFault]
    · simp [hf₁, hf₂, Status.withCode]
    · exact ⟨hf₁.trans hf₂.symm, fun _ => rfl,
        fun _ => ⟨rfl, rfl, rfl, rfl, fun n hn k hk => read_writeBytes_congr hn hk⟩⟩

end Sys2Proof.Proofs
end

section
/-! Proofs of the statements of 60_exceptions.md: errors and what they write (R212, R215), the faults and when they are
taken (R218, R219), the engine while FAULT is 1 (R221), and the host actions that do not exist (R222). -/

namespace Sys2Proof.Proofs

open Sys2Proof.Machine Sys2Proof.Laws

/-! ### The endings of the commands (R212, R215) -/

/-- Settles O22: of everything a command can do only `raiseError` leaves an error in CODE and FAULT 0. -/
theorem errorWritesOnlyItsCode : Obligations.ErrorWritesOnlyItsCode := by
  intro i s t e hf h ht
  rcases exec_cases h with ⟨hne, -⟩ | ⟨-, rfl | ⟨e', rfl⟩ | ⟨f, -, rfl⟩ | ⟨x, -, rfl⟩⟩
  · exact absurd hf hne
  · exact absurd (congrArg Status.fault ht) (Option.some_ne_none _)
  · rw [← ht]
    rfl
  · exact absurd (congrArg Status.code ht) Code.noConfusion
  · exact absurd (congrArg Status.code ht) Code.noConfusion

/-- The three errors of DECODE: no frame is too large for it (R196, R211). -/
theorem openFrame_error_cases {cfg : Config} {d : Direction} {ka kn : Key128} {f : Bytes} {e : ErrorCode}
    (h : openFrame cfg d ka kn f = .error e) : e = .frameTooShort ∨ e = .badMarker ∨ e = .authenticationFailed := by
  rw [openFrame_eq] at h
  split_ifs at h
  · exact .inl (Except.error.inj h).symm
  · exact .inr (.inl (Except.error.inj h).symm)
  · exact .inr (.inr (Except.error.inj h).symm)

/-- Settles O23: with its required set written, a command has an ending for each outcome of its checks, and none of these
sets FAULT. -/
theorem commandsEndOnEveryInput : Obligations.CommandsEndOnEveryInput := by
  constructor
  · intro d s ka kn l f hf hka hkn hl hw
    have ho : decodeOperands s = some ⟨ka, kn, f⟩ := (decodeOperands_eq_some _ _).2 ⟨hka, hkn, l, hl, hw⟩
    cases hx : openFrame s.config d ka kn f with
    | error e =>
      refine ⟨_, exec_decode_error hf ho hx, hf, .inr ?_⟩
      rcases openFrame_error_cases hx with rfl | rfl | rfl
      · exact .inl rfl
      · exact .inr (.inl rfl)
      · exact .inr (.inr rfl)
    | ok x => exact ⟨_, exec_decode_opened hf ho hx, hf, .inl rfl⟩
  · intro d s ka kn dev fcnt fctrl fport n p hf hka hkn hdev hfcnt hfctrl hfport hplen hp
    have hops (q : Bytes) (hq : payloadOperand s n.toNat = some q) :
        encodeOperands s = some ⟨ka, kn, ⟨dev, fctrl, fcnt, fport⟩, n.toNat, q⟩ :=
      (encodeOperands_eq_some _ _).2 ⟨hka, hkn, hdev, hfcnt, hfctrl, hfport, ⟨n, hplen, rfl⟩, hq⟩
    rcases Nat.lt_or_ge (maxPayload s.config.tagLen) n.toNat with hn | hn
    · exact ⟨_, exec_encode_tooLarge hf (hops [] (if_neg hn.not_ge)) hn, hf, .inr rfl⟩
    · exact ⟨_, exec_encode_framed hf (hops p ((if_pos hn).trans hp)) hn, hf, .inl rfl⟩

/-! ### The required sets (R219) -/

/-- A computation that first reads `x` has no value when `x` has none, or when what follows has none, provided that this
does not depend on the value of `x`. -/
theorem bind_eq_none_iff_or {α β : Type} {x : Option α} {f : α → Option β} {P : Prop}
    (h : ∀ a, x = some a → (f a = none ↔ P)) : x >>= f = none ↔ x = none ∨ P := by
  cases x with
  | none => exact iff_of_true rfl (.inl rfl)
  | some a => rw [Option.bind_eq_bind, Option.bind_some, h a rfl, or_iff_right (Option.some_ne_none a)]

/-- A computation that reads `x` and then answers has no value exactly when `x` has none. -/
theorem bind_some_eq_none_iff {α β : Type} {x : Option α} {f : α → β} : (x >>= fun a => some (f a)) = none ↔ x = none :=
  (bind_eq_none_iff_or fun _ _ => iff_of_false (Option.some_ne_none _) id).trans (or_iff_left id)

/-- A byte string from offset 0 on is not read exactly when one of its bytes is `⊥` (R219). -/
theorem readBytes_zero_eq_none (m : Memory) (n : Nat) : m.readBytes 0 n = none ↔ ∃ k < n, m.read k = none := by
  simp only [readBytes_eq_none, Nat.zero_add]

/-- The payload is missing exactly when it is not too large and one of its bytes is `⊥` (R219). -/
theorem payloadOperand_eq_none (s : State) (n : Nat) :
    payloadOperand s n = none ↔ n ≤ maxPayload s.config.tagLen ∧ ∃ k < n, s.pbuf.read k = none := by
  rw [payloadOperand]
  split
  · rw [readBytes_zero_eq_none, and_iff_right ‹_›]
  · exact iff_of_false (Option.some_ne_none _) fun h => absurd h.1 ‹_›

/-- ENCODE's required set is not whole exactly when one of its parts is `⊥` (R219). -/
theorem encodeOperands_eq_none (s : State) :
    encodeOperands s = none ↔
      s.appkey = none ∨ s.nwkkey = none ∨ s.devaddr = none ∨ s.fcnt = none ∨ s.fctrl = none ∨ s.fport = none ∨
      s.plen = none ∨
      ∃ (n : Byte) (k : Nat), s.plen = some n ∧ n.toNat ≤ maxPayload s.config.tagLen ∧ k < n.toNat ∧
        s.pbuf.read k = none := by
  refine bind_eq_none_iff_or fun _ _ => bind_eq_none_iff_or fun _ _ => bind_eq_none_iff_or fun _ _ =>
    bind_eq_none_iff_or fun _ _ => bind_eq_none_iff_or fun _ _ => bind_eq_none_iff_or fun _ _ =>
    bind_eq_none_iff_or fun n hn => bind_some_eq_none_iff.trans ?_
  simp [payloadOperand_eq_none, hn]

/-- DECODE's required set is not whole exactly when one of its parts is `⊥` (R219). -/
theorem decodeOperands_eq_none (s : State) :
    decodeOperands s = none ↔
      s.appkey = none ∨ s.nwkkey = none ∨ s.flen = none ∨
      ∃ (l : Byte) (k : Nat), s.flen = some l ∧ k < l.toNat ∧ s.fbuf.read k = none := by
  refine bind_eq_none_iff_or fun _ _ => bind_eq_none_iff_or fun _ _ => bind_eq_none_iff_or fun l hl =>
    bind_some_eq_none_iff.trans ?_
  simp [readBytes_zero_eq_none, hl]

/-- A fault that is taken while FAULT is 0 sets FAULT with its reason, keeps CODE and writes nothing else (R218). -/
theorem takeFault_of_fault_eq_none {s : State} (f : Fault) (hf : s.status.fault = none) :
    takeFault f s = { s with status := { fault := some f, code := s.status.code } } := by
  rw [takeFault, Status.withFault, hf, Option.getD_none]

/-- An ENCODE takes the fault exactly when its required set is not whole: its other endings leave FAULT 0 (R219). -/
theorem exec_encode_eq_takeFault_iff {d : Direction} {s : State} (hf : s.status.fault = none) :
    exec (encodeInstr d) s = .next (takeFault .unwrittenOperand s) ↔ encodeOperands s = none := by
  refine ⟨fun h => ?_, exec_encode_unwritten hf⟩
  rcases exec_encode_cases h with ⟨hne, -⟩ | ⟨-, ho, -⟩ | ⟨-, o, -, ⟨-, ht⟩ | ⟨-, ht⟩⟩
  · exact absurd hf hne
  · exact ho
  all_goals exact absurd ((congrArg (·.status.fault) ht).trans hf) (Option.some_ne_none _)

/-- A DECODE takes the fault exactly when its required set is not whole: its other endings leave FAULT 0 (R219). -/
theorem exec_decode_eq_takeFault_iff {d : Direction} {s : State} (hf : s.status.fault = none) :
    exec (decodeInstr d) s = .next (takeFault .unwrittenOperand s) ↔ decodeOperands s = none := by
  refine ⟨fun h => ?_, exec_decode_unwritten hf⟩
  rcases exec_decode_cases h with ⟨hne, -⟩ | ⟨-, ho, -⟩ | ⟨-, o, -, ⟨e, -, ht⟩ | ⟨x, -, ht⟩⟩
  · exact absurd hf hne
  · exact ho
  all_goals exact absurd ((congrArg (·.status.fault) ht).trans hf) (Option.some_ne_none _)

/-- Settles O24: the fault is taken exactly when the required set is not whole, which is said part by part. -/
theorem unwrittenOperandFaults : Obligations.UnwrittenOperandFaults := by
  intro d s hf
  rw [← takeFault_of_fault_eq_none _ hf]
  exact ⟨(exec_encode_eq_takeFault_iff hf).trans (encodeOperands_eq_none s),
    (exec_decode_eq_takeFault_iff hf).trans (decodeOperands_eq_none s)⟩

/-! ### FAULT over a step (R218) -/

/-- A command leaves FAULT, or takes a fault while FAULT is 0 (R218, R221). -/
theorem exec_fault_cases {i : Instr} {s t : State} (h : exec i s = .next t) :
    t.status.fault = s.status.fault ∨ (s.status.fault = none ∧ ∃ f, t = takeFault f s) := by
  rcases exec_cases h with ⟨-, rfl⟩ | ⟨hf, rfl | ⟨e, rfl⟩ | ⟨f, -, rfl⟩ | ⟨x, -, rfl⟩⟩
  · exact .inl rfl
  · exact .inr ⟨hf, _, rfl⟩
  all_goals exact .inl rfl

/-- So does every write of a word to CMD (R220, R221). -/
theorem command_fault_cases {w : Byte} {s t : State} (h : command w s = .next t) :
    t.status.fault = s.status.fault ∨ (s.status.fault = none ∧ ∃ f, t = takeFault f s) := by
  rcases command_cases w s with ⟨-, hc⟩ | ⟨hf, -, hc⟩ | ⟨-, i, -, hc⟩
  · obtain rfl := Host.Outcome.next.inj (hc.symm.trans h)
    exact .inl rfl
  · exact .inr ⟨hf, _, Host.Outcome.next.inj (h.symm.trans hc)⟩
  · exact exec_fault_cases (hc.symm.trans h)

/-- Every action of the host but RESET leaves FAULT, or takes a fault while FAULT is 0 (R218). -/
theorem perform_fault_cases {a : HostAccess} {s t : State} (ha : a ≠ .reset) (h : perform a s = .next t) :
    t.status.fault = s.status.fault ∨ (s.status.fault = none ∧ ∃ f, t = takeFault f s) := by
  rcases perform_cases h with ⟨n, -, -, hc⟩ | ⟨r, v, -, hs⟩ | ⟨v, -, rfl⟩ | ⟨b, k, v, -, -, -, rfl⟩ | ⟨hr, -⟩
  · exact command_fault_cases hc
  · obtain ⟨-, -, hstatus⟩ := stores_buffers_status hs
    exact .inl (congrArg Status.fault hstatus)
  · exact .inl rfl
  · cases b <;> exact .inl rfl
  · exact absurd hr ha

/-- Every step but RESET leaves FAULT, or takes a fault while FAULT is 0, and then only the host action is done besides
(R218). -/
theorem step_fault_cases {s t : State} (hreset : s.pending.head? ≠ some .reset) (h : step s = .next t) :
    t.status.fault = s.status.fault ∨
    (s.status.fault = none ∧ ∃ f, t = takeFault f { s with pending := s.pending.tail }) := by
  rcases step_cases h with ⟨-, rfl⟩ | ⟨a, rest, hp, ha⟩
  · exact .inl rfl
  · rw [hp, List.head?_cons] at hreset
    rw [hp, List.tail_cons]
    exact perform_fault_cases (fun hr => hreset (congrArg some hr)) ha

/-- RESET clears FAULT (R218, R240). -/
theorem step_reset_fault {s t : State} (hreset : s.pending.head? = some .reset) (h : step s = .next t) :
    t.status.fault = none := by
  obtain ⟨rest, hp⟩ := List.head?_eq_some_iff.1 hreset
  obtain rfl := Host.Outcome.next.inj (h.symm.trans (step_of_pending hp))
  rfl

/-- Settles O25: a step either leaves FAULT, or takes a fault while FAULT is 0, or is RESET. -/
theorem faultIsStickyAndWritesNothingElse : Obligations.FaultIsStickyAndWritesNothingElse := by
  intro s t h
  refine ⟨fun f hf ht => ?_, fun f hf hreset => ?_, fun hreset => step_reset_fault hreset h⟩
  · have hreset : s.pending.head? ≠ some .reset := fun hr =>
      Option.some_ne_none f (ht.symm.trans (step_reset_fault hr h))
    rcases step_fault_cases hreset h with hkeep | ⟨-, f', rfl⟩
    · exact absurd (ht.symm.trans (hkeep.trans hf)) (Option.some_ne_none f)
    · have hf' : ({ s with pending := s.pending.tail } : State).status.fault = none := hf
      rw [takeFault_of_fault_eq_none f' hf'] at ht ⊢
      obtain rfl := Option.some.inj ht
      rfl
  · rcases step_fault_cases hreset h with hkeep | ⟨hnone, -⟩
    · exact hkeep.trans hf
    · exact absurd (hf.symm.trans hnone) (Option.some_ne_none f)

/-! ### The engine while FAULT is 1 (R221) -/

theorem command_of_faulted {s : State} (w : Byte) (hf : s.status.fault ≠ none) : command w s = .next s := by
  rcases command_cases w s with ⟨-, hc⟩ | ⟨hnone, -⟩ | ⟨hnone, -⟩
  · exact hc
  all_goals exact absurd hnone hf

theorem exec_of_faulted {s : State} (i : Instr) (hf : s.status.fault ≠ none) : exec i s = .next s := by
  rw [exec_eq, runOf_faulted i hf, commit]

/-- A register write stores the same value whatever STATUS is (R221). -/
theorem stores_setStatus {s t : State} {r : RegName} {v : HostValue} (h : Stores s r v t) (st : Status) :
    Stores { s with status := st } r v { t with status := st } := by
  cases h <;> constructor <;> assumption

/-- What a read of a register other than STATUS answers does not depend on STATUS (R221). -/
theorem readRegister_setStatus {r : RegName} (hr : r ≠ .status) (s : State) (st : Status) :
    readRegister r { s with status := st } = readRegister r s := by
  cases r <;> trivial

/-- What a read of a buffer byte answers does not depend on STATUS (R221). -/
theorem readBufferByte_setStatus (b : BufName) (k : Nat) (s : State) (st : Status) :
    readBufferByte b k { s with status := st } = readBufferByte b k s := by
  cases b <;> rfl

/-- A read of a register that has an answer is performed (R56). -/
theorem perform_rd_of_ok {r : RegName} {s : State} {v : HostValue} (h : readRegister r s = .ok v) :
    perform (.rd r) s = .next { s with received := s.received ++ [v] } := by
  rw [perform, hostRead, h, answer]

/-- A read of a buffer byte that has an answer is performed (R56). -/
theorem perform_rdb_of_ok {b : BufName} {k : Nat} {s : State} {v : HostValue} (h : readBufferByte b k s = .ok v) :
    perform (.rdb b k) s = .next { s with received := s.received ++ [v] } := by
  rw [perform, hostReadByte, h, answer]

/-- A host action other than a write of CMD, a read of STATUS and RESET neither looks at STATUS nor writes it (R221). -/
theorem perform_setStatus {a : HostAccess} {s t : State} (st : Status) (hcmd : ∀ v, a ≠ .wr .cmd v)
    (hstatus : a ≠ .rd .status) (hreset : a ≠ .reset) (h : perform a s = .next t) :
    perform a { s with status := st } = .next { t with status := st } := by
  rcases perform_cases h with ⟨n, rfl, -⟩ | ⟨r, v, rfl, hs⟩ | ⟨v, ⟨r, rfl, hv⟩ | ⟨b, k, rfl, hv⟩, rfl⟩ |
    ⟨b, k, v, rfl, hk, hv, rfl⟩ | ⟨rfl, -⟩
  · exact absurd rfl (hcmd _)
  · exact perform_wr_of_stores (stores_setStatus hs st)
  · have hr : r ≠ .status := fun hr => hstatus (congrArg HostAccess.rd hr)
    exact perform_rd_of_ok ((readRegister_setStatus hr s st).trans hv)
  · exact perform_rdb_of_ok ((readBufferByte_setStatus b k s st).trans hv)
  · rw [perform_wrb_of_lt _ b hk hv]
    cases b <;> rfl
  · exact absurd rfl hreset

/-- Settles O26: `command` and `exec` do nothing while FAULT is 1, no other action but a read of STATUS and RESET has to do
with STATUS, and a step other than RESET changes FAULT only by taking a fault while it is 0. -/
theorem faultedEngineIgnoresCommands : Obligations.FaultedEngineIgnoresCommands := by
  refine ⟨fun s n rest hf hp hn => ?_, fun i s => exec_of_faulted i, fun a s t st => perform_setStatus st,
    fun s => perform_rd_of_ok rfl, fun s t hf hreset h => ?_⟩
  · rw [step_of_pending_cmd hp hn]
    exact command_of_faulted (s := { s with pending := rest }) _ hf
  · rcases step_fault_cases hreset h with hkeep | ⟨hnone, -⟩
    · exact hkeep
    · exact absurd hnone hf

/-! ### The host actions that do not exist (R222) -/

theorem not_exists_refused_eq_next (r : Refusal) :
    ¬ ∃ t, (Host.Outcome.refused r : Host.Outcome State Fault Refusal) = .next t := by
  rintro ⟨t, h⟩
  cases h

/-- An action is refused exactly when it does not answer a next state (R218, R222; log 7). -/
theorem exists_perform_refused_iff_not_next (a : HostAccess) (s : State) :
    (∃ r, perform a s = .refused r) ↔ ¬ ∃ t, perform a s = .next t := by
  cases h : perform a s with
  | next t => exact iff_of_false nofun fun hn => hn ⟨t, rfl⟩
  | fault f => exact absurd h (perform_ne_fault a s f)
  | refused r => exact iff_of_true ⟨r, rfl⟩ (not_exists_refused_eq_next r)

/-- What a register write stores had the form of the register, which is not STATUS: the converse of `stores_of_fits`. -/
theorem fits_of_stores {s t : State} {r : RegName} {v : HostValue} (h : Stores s r v t) :
    r.hostWritable = true ∧ v.fits r = true := by
  cases h with
  | _ _ hv => exact ⟨rfl, decide_eq_true hv⟩

/-- A register write is performed exactly when the host may write the register and the value has its form (R54, R222). -/
theorem exists_perform_wr_next_iff (r : RegName) (v : HostValue) (s : State) :
    (∃ t, perform (.wr r v) s = .next t) ↔ r.hostWritable = true ∧ v.fits r = true := by
  constructor
  · rintro ⟨t, h⟩
    rcases perform_cases h with ⟨n, ha, hn, -⟩ | ⟨r', v', ha, hs⟩ | ⟨_, ⟨_, ha, -⟩ | ⟨_, _, ha, -⟩, -⟩ |
      ⟨_, _, _, ha, -⟩ | ⟨ha, -⟩ <;> cases ha
    · exact ⟨rfl, decide_eq_true hn⟩
    · exact fits_of_stores hs
  · rintro ⟨hw, hfits⟩
    by_cases hcmd : r = .cmd
    · subst hcmd
      cases v with
      | num n =>
        obtain ⟨t, ht⟩ := command_next (BitVec.ofNat 8 n) s
        exact ⟨t, (if_pos (of_decide_eq_true hfits)).trans ht⟩
      | str bs => exact absurd hfits Bool.false_ne_true
    · obtain ⟨t, ht⟩ := stores_of_fits s hcmd hw hfits
      exact ⟨t, perform_wr_of_stores ht⟩

/-- A read is performed exactly when it has an answer. -/
theorem exists_answer_next_iff (r : Except Refusal HostValue) (s : State) :
    (∃ t, answer r s = .next t) ↔ ∃ v, r = .ok v := by
  cases r with
  | ok v => exact iff_of_true ⟨_, rfl⟩ ⟨v, rfl⟩
  | error e => exact iff_of_false (not_exists_refused_eq_next e) nofun

theorem exists_readNumber_ok_iff {w : Nat} (r : RegName) (x : Option (BitVec w)) :
    (∃ v, readNumber r x = .ok v) ↔ x.isSome = true := by
  cases x with
  | none => exact iff_of_false nofun nofun
  | some x => exact iff_of_true ⟨_, rfl⟩ rfl

/-- A register has an answer exactly when it has a read path and is written (R21, R22). -/
theorem exists_readRegister_ok_iff (r : RegName) (s : State) :
    (∃ v, readRegister r s = .ok v) ↔ r.hostReadable = true ∧ s.isWritten r = true := by
  cases r with
  | appkey | nwkkey | cmd => exact iff_of_false nofun nofun
  | status => exact iff_of_true ⟨_, rfl⟩ ⟨rfl, rfl⟩
  | fcnt | fctrl | fport | plen | flen => exact (exists_readNumber_ok_iff _ _).trans (and_iff_right rfl).symm
  | devaddr =>
    rw [readRegister, State.isWritten]
    cases s.devaddr with
    | none => exact iff_of_false nofun nofun
    | some dev => exact iff_of_true ⟨_, rfl⟩ ⟨rfl, rfl⟩

/-- A buffer byte has an answer exactly when its offset exists and it is written (R22, R50). -/
theorem exists_readBufferByte_ok_iff (b : BufName) (k : Nat) (s : State) :
    (∃ v, readBufferByte b k s = .ok v) ↔ k < bufCap ∧ (s.buffer b).read k ≠ none := by
  rw [readBufferByte]
  split
  · rw [and_iff_right ‹_›]
    cases (s.buffer b).read k with
    | none => exact iff_of_false nofun fun h => h rfl
    | some v => exact iff_of_true ⟨_, rfl⟩ (Option.some_ne_none v)
  · exact iff_of_false nofun fun h => absurd h.1 ‹_›

/-- A write of a buffer byte is performed exactly when its offset exists and the value fits a byte (R51, R222). -/
theorem exists_perform_wrb_next_iff (b : BufName) (k v : Nat) (s : State) :
    (∃ t, perform (.wrb b k v) s = .next t) ↔ k < bufCap ∧ v < 2 ^ 8 := by
  rw [perform, hostWriteByte]
  split
  · split
    · exact iff_of_true ⟨_, rfl⟩ ⟨‹_›, ‹_›⟩
    · exact iff_of_false (not_exists_refused_eq_next _) fun h => absurd h.2 ‹_›
  · exact iff_of_false (not_exists_refused_eq_next _) fun h => absurd h.1 ‹_›

/-- An action of the host is refused exactly when it is not well formed or reads a `⊥` (R222). -/
theorem exists_perform_refused_iff (a : HostAccess) (s : State) :
    (∃ r, perform a s = .refused r) ↔
      a.wellFormed = false ∨ (∃ r, a = .rd r ∧ s.isWritten r = false) ∨
      ∃ b k, a = .rdb b k ∧ (s.buffer b).read k = none := by
  rw [exists_perform_refused_iff_not_next]
  cases a with
  | wr r v =>
    rw [exists_perform_wr_next_iff]
    simp [HostAccess.wellFormed, imp_iff_not_or]
  | rd r =>
    rw [perform, hostRead, exists_answer_next_iff, exists_readRegister_ok_iff]
    simp [HostAccess.wellFormed, imp_iff_not_or]
  | wrb b k v =>
    rw [exists_perform_wrb_next_iff]
    simp [HostAccess.wellFormed, bufCap, imp_iff_not_or]
  | rdb b k =>
    rw [perform, hostReadByte, exists_answer_next_iff, exists_readBufferByte_ok_iff]
    simp [HostAccess.wellFormed, bufCap, imp_iff_not_or]
  | reset => simp [HostAccess.wellFormed, perform]

/-- Settles O27: the step performs the action, which looks at the same registers and buffers when it is no longer
pending. -/
theorem refusedExactlyWhereNoActionExists : Obligations.RefusedExactlyWhereNoActionExists := by
  intro s a rest hp
  rw [step_of_pending hp]
  exact exists_perform_refused_iff a { s with pending := rest }

end Sys2Proof.Proofs
end

section
/-! Proofs of the statements of 70_reset_and_hazards.md: what the trace of a command shows (R255). -/

namespace Sys2Proof.Proofs

open Sys2Proof.Machine Sys2Proof.Laws

/-! ### The operands of the work (R255) -/

/-- The work of a tag sees TAG_LEN and MAC_MODE, and no other parameter. -/
theorem tagOps_congr {cfg₁ cfg₂ : Config} (ht : cfg₁.tagLen = cfg₂.tagLen) (hm : cfg₁.macMode = cfg₂.macMode)
    (n len : Nat) : tagOps cfg₁ n len = tagOps cfg₂ n len := by
  rw [tagOps, tagOps, ht, hm]

/-- So does the work of the checks of DECODE. -/
theorem verifyOps_congr {cfg₁ cfg₂ : Config} (ht : cfg₁.tagLen = cfg₂.tagLen) (hm : cfg₁.macMode = cfg₂.macMode)
    (len : Nat) : verifyOps cfg₁ len = verifyOps cfg₂ len := by
  rw [verifyOps, verifyOps, tagOps_congr ht hm, ht]

/-- PLEN as a number is the same operand for two ENCODEs with the same register PLEN. -/
theorem plen_operand_congr {s₁ s₂ : State} {o₁ o₂ : EncodeOperands} (ho₁ : encodeOperands s₁ = some o₁)
    (ho₂ : encodeOperands s₂ = some o₂) (hp : s₁.plen = s₂.plen) : o₁.plen = o₂.plen := by
  obtain ⟨-, -, -, -, -, -, ⟨n, hn, hon⟩, -⟩ := (encodeOperands_eq_some s₁ o₁).1 ho₁
  rw [hon, plen_of_encodeOperands ho₂ (hp.symm.trans hn)]

/-- Two DECODEs with the same FLEN read frames of one length. -/
theorem wire_length_congr {s₁ s₂ : State} {o₁ o₂ : DecodeOperands} (ho₁ : decodeOperands s₁ = some o₁)
    (ho₂ : decodeOperands s₂ = some o₂) (hl : s₁.flen = s₂.flen) : o₁.wire.length = o₂.wire.length := by
  obtain ⟨l₁, hl₁, hw₁⟩ := wire_length ho₁
  obtain ⟨l₂, hl₂, hw₂⟩ := wire_length ho₂
  rw [hw₁, hw₂, Option.some.inj (hl₁.symm.trans (hl.trans hl₂))]

/-- The first byte of a frame that is not empty is byte 0 of FBUF (R72). -/
theorem read_fbuf_zero {s : State} {o : DecodeOperands} (ho : decodeOperands s = some o) (hpos : 0 < o.wire.length) :
    s.fbuf.read 0 = some (o.wire.getD 0 0) := by
  obtain ⟨-, -, l, -, hw⟩ := (decodeOperands_eq_some s o).1 ho
  rw [((readBytes_eq_some _ _ _ _).1 hw).2 0 hpos, List.getD_eq_getElem _ _ hpos]

/-! ### The trace of DECODE up to and including TAGCMP (R255) -/

/-- A trace is cut where its first keystream block begins. -/
theorem beforeKeystream_append_keystreamOps {ops : List UnitOp} (h : UnitOp.ctrblk ∉ ops) (n : Nat) :
    beforeKeystream (ops ++ keystreamOps n) = ops := by
  have hkeep : ∀ op ∈ ops, (op != .ctrblk) = true := fun op hop => bne_iff_ne.2 fun heq => h (heq ▸ hop)
  have hcut : (keystreamOps n).takeWhile (· != .ctrblk) = [] := by cases n <;> rfl
  rw [beforeKeystream, List.takeWhile_append_of_pos hkeep, hcut, List.append_nil]

/-- A trace without a counter block is not cut. -/
theorem beforeKeystream_eq_self {ops : List UnitOp} (h : UnitOp.ctrblk ∉ ops) : beforeKeystream ops = ops := by
  simpa [keystreamOps] using beforeKeystream_append_keystreamOps h 0

/-- Up to and including TAGCMP the trace is that of the checks, or empty when the length or the Marker is wrong. -/
theorem beforeKeystream_openFrameT (cfg : Config) (d : Direction) (ka kn : Key128) (f : Bytes) :
    beforeKeystream (openFrameT cfg d ka kn f).ops =
      if f.length < minFrame cfg.tagLen then [] else if f.getD 0 0 ≠ cfg.marker then [] else verifyOps cfg f.length := by
  rw [openFrameT_ops]
  split
  · rfl
  split
  · rfl
  split
  · exact beforeKeystream_append_keystreamOps (ctrblk_not_mem_verifyOps _ _) _
  · rw [List.append_nil, beforeKeystream_eq_self (ctrblk_not_mem_verifyOps _ _)]

/-- Part (a) of R255: the checks see the length of the frame and whether its first byte is the Marker. -/
theorem beforeKeystream_decodeRunT_congr {d₁ d₂ : Direction} {s₁ s₂ : State} {o₁ o₂ : DecodeOperands}
    (hf₁ : s₁.status.fault = none) (hf₂ : s₂.status.fault = none)
    (ho₁ : decodeOperands s₁ = some o₁) (ho₂ : decodeOperands s₂ = some o₂) (hl : s₁.flen = s₂.flen)
    (ht : s₁.config.tagLen = s₂.config.tagLen) (hm : s₁.config.macMode = s₂.config.macMode)
    (hmarker : s₁.fbuf.read 0 = some s₁.config.marker ↔ s₂.fbuf.read 0 = some s₂.config.marker) :
    beforeKeystream (decodeRunT d₁ s₁).ops = beforeKeystream (decodeRunT d₂ s₂).ops := by
  have hlen := wire_length_congr ho₁ ho₂ hl
  rw [decodeRunT_ops_of_some hf₁ ho₁, decodeRunT_ops_of_some hf₂ ho₂, beforeKeystream_openFrameT,
    beforeKeystream_openFrameT, verifyOps_congr ht hm, ht, hlen]
  by_cases hshort : o₂.wire.length < minFrame s₂.config.tagLen
  · rw [if_pos hshort, if_pos hshort]
  · have hpos : 0 < o₂.wire.length := by
      rw [minFrame, headerLen] at hshort
      omega
    rw [read_fbuf_zero ho₁ (hlen.symm ▸ hpos), read_fbuf_zero ho₂ hpos, Option.some_inj, Option.some_inj] at hmarker
    simp only [hmarker, ne_eq]

/-! ### TAGCMP and what follows it (R255) -/

/-- Tag generation performs no byte step of TAGCMP (R168). -/
theorem tagByte_not_mem_tagOps (cfg : Config) (n len : Nat) : UnitOp.tagByte ∉ tagOps cfg n len := by
  have hsub : UnitOp.tagByte ∉ subkeyOps cfg.macMode := by cases cfg.macMode <;> decide
  simp [tagOps, chainOps, hsub]

theorem count_tagByte_verifyOps (cfg : Config) (len : Nat) :
    (verifyOps cfg len).count .tagByte = tagLength cfg.tagLen := by
  rw [verifyOps, List.count_append, List.count_eq_zero_of_not_mem (tagByte_not_mem_tagOps _ _ _), Nat.zero_add,
    List.count_cons_of_ne UnitOp.noConfusion, List.count_replicate_self]

theorem count_tagByte_keystreamOps (n : Nat) : (keystreamOps n).count .tagByte = 0 :=
  List.count_eq_zero_of_not_mem (by simp [keystreamOps])

/-- Part (c) of R255: the rest of the trace is the keystream of a frame that opens. -/
theorem decodeRunT_ops_eq_beforeKeystream_append {d : Direction} {s : State} {o : DecodeOperands}
    (hf : s.status.fault = none) (ho : decodeOperands s = some o) :
    (decodeRunT d s).ops = beforeKeystream (decodeRunT d s).ops ++
      (match (decodeRunT d s).val with
        | .opened x => keystreamOps (ceilBlocks x.payload.length)
        | _ => []) := by
  have hnone := ctrblk_not_mem_verifyOps s.config o.wire.length
  rw [decodeRunT_ops_of_some hf ho, decodeRunT_val_of_some hf ho]
  rcases openFrameT_endings s.config d o.appkey o.nwkkey o.wire with
    ⟨e, -, hr, hops⟩ | ⟨-, hr, hops⟩ | ⟨-, hr, hops⟩ <;> rw [hr, hops]
  · rfl
  · rw [beforeKeystream_eq_self hnone]
    exact (List.append_nil _).symm
  · rw [beforeKeystream_append_keystreamOps hnone, ← (opened_payload_length hr).2]

/-- Part (b) of R255: a DECODE that is not ended by its length or its Marker gets to TAGCMP. -/
theorem count_tagByte_decodeRunT {d : Direction} {s : State} {o : DecodeOperands} (hf : s.status.fault = none)
    (ho : decodeOperands s = some o) (h : ∀ e, (decodeRunT d s).val = .error e → e = .authenticationFailed) :
    (decodeRunT d s).ops.count .tagByte = tagLength s.config.tagLen := by
  rw [decodeRunT_val_of_some hf ho] at h
  rw [decodeRunT_ops_of_some hf ho]
  rcases openFrameT_endings s.config d o.appkey o.nwkkey o.wire with
    ⟨e, he, hr, -⟩ | ⟨-, -, hops⟩ | ⟨-, -, hops⟩
  · rw [hr] at h
    exact absurd (h e rfl) he
  · rw [hops, count_tagByte_verifyOps]
  · rw [hops, List.count_append, count_tagByte_verifyOps, count_tagByte_keystreamOps, Nat.add_zero]

/-! ### The trace of ENCODE (R255) -/

/-- The work of an ENCODE in terms of PLEN: nothing when it is too large, else its keystream and its tag (R185, R186). -/
theorem encodeRunT_ops_of_plen {d : Direction} {s : State} {o : EncodeOperands} (hf : s.status.fault = none)
    (ho : encodeOperands s = some o) :
    (encodeRunT d s).ops = if o.plen > maxPayload s.config.tagLen then []
      else keystreamOps (ceilBlocks o.plen) ++ tagOps s.config (headerLen + o.plen) (9 + o.plen) := by
  rw [encodeRunT_ops_of_some hf ho]
  split
  · rfl
  next hn => rw [sealFrameT_ops, payload_length ho (Nat.le_of_not_lt hn), keystreamOps]

/-- Settles O56: up to TAGCMP a DECODE does the work of its checks, which see the length and the verdict on the Marker;
after it the keystream follows exactly when the frame opens; the work of an ENCODE is a function of PLEN. -/
theorem traceShowsOnlyLengthMarkerAndVerdict : Obligations.TraceShowsOnlyLengthMarkerAndVerdict := by
  refine ⟨fun _ _ _ _ _ _ => beforeKeystream_decodeRunT_congr, fun d s o hf ho =>
    ⟨decodeRunT_ops_eq_beforeKeystream_append hf ho, count_tagByte_decodeRunT hf ho⟩, ?_⟩
  intro d₁ d₂ s₁ s₂ o₁ o₂ hf₁ hf₂ ho₁ ho₂ hp ht hm
  rw [encodeRunT_ops_of_plen hf₁ ho₁, encodeRunT_ops_of_plen hf₂ ho₂, plen_operand_congr ho₁ ho₂ hp, ht,
    tagOps_congr ht hm]

end Sys2Proof.Proofs
end
